-- ==== Sys2Proof/Word.lean ====
section
/-!
DEFINITION. The words the engine works on: bytes, 16-bit and 32-bit values, and the 16-byte blocks of
`KEY`, `IV` and the AES state (spec 00_scope.md R5, 41_aes_block.md R100, R101).
-/

namespace Sys2Proof

/-- A byte, 0 to 255 (R5). -/
abbrev Byte := BitVec 8

/-- A u16, 0 to 65535 (R5). -/
abbrev U16 := BitVec 16

/-- The width of `ILEN`, `OLEN` and `R_TOTAL` (R13, R14, R15). -/
abbrev U32 := BitVec 32

/-- Sixteen bytes in sequence order: `b0` is the byte written down, sent or stored first (R12, R43).
As an AES state, `b<i>` is row `i mod 4` of column `i div 4` (R101). -/
structure Block where
  b0 : Byte
  b1 : Byte
  b2 : Byte
  b3 : Byte
  b4 : Byte
  b5 : Byte
  b6 : Byte
  b7 : Byte
  b8 : Byte
  b9 : Byte
  b10 : Byte
  b11 : Byte
  b12 : Byte
  b13 : Byte
  b14 : Byte
  b15 : Byte
deriving DecidableEq, Repr, Inhabited

/-- A 4-byte word of the AES key schedule (R100, R106). -/
structure Word4 where
  a0 : Byte
  a1 : Byte
  a2 : Byte
  a3 : Byte
deriving DecidableEq, Repr, Inhabited

/-- Sixteen bytes `0x00`. -/
def Block.zero : Block := ⟨0, 0, 0, 0, 0, 0, 0, 0, 0, 0, 0, 0, 0, 0, 0, 0⟩

end Sys2Proof
end

