-- ==== Sys2Proof/Syntax.lean ====
section
/-!
DEFINITION. The engine's operations, one constructor per row of spec/opcode_table.json, and the host's actions
(spec 30_encoding.md R70, R75; 45_host_interface.md R180; register names and numbers, 10_state.md R24).
-/

namespace Sys2Proof

/-- The nine operations of R70. The whole command byte is the opcode, so none carries an operand. -/
inductive Instr where
  /-- `CSUM_ADD` (R90). -/
  | csumAdd
  /-- `CSUM_XOR` (R91). -/
  | csumXor
  /-- `AES_ENC` (R121). -/
  | aesEnc
  /-- `AES_DEC` (R124). -/
  | aesDec
  /-- `WD_BUILD` (R140). -/
  | wdBuild
  /-- `WD_PARSE` (R144). -/
  | wdParse
  /-- `WD_RESP` (R143). -/
  | wdResp
  /-- `WL_BUILD` (R160). -/
  | wlBuild
  /-- `WL_PARSE` (R163). -/
  | wlParse
deriving DecidableEq, Repr

/-- Every register of R24's table, by name. -/
inductive Reg where
  | op | status | sync | feature | cmdid | crypto | seq | result | key | iv
  | ilen | ibuf | olen | obuf | rSync | rFeature | rCmdid | rCrypto | rSeq | rTotal
deriving DecidableEq, Repr

/-- The operand registers of R11. -/
inductive OperandReg where
  | sync | feature | cmdid | crypto | seq | result | key | iv
deriving DecidableEq, Repr

/-- An operand register together with a value of its width: what `WriteReg(r, v)` carries (R180, R11). -/
inductive OperandValue where
  | sync (v : Byte)
  | feature (v : U16)
  | cmdid (v : U16)
  | crypto (v : Byte)
  | seq (v : Byte)
  | result (v : Byte)
  | key (v : Block)
  | iv (v : Block)
deriving DecidableEq, Repr

/-- What `ReadReg(r)` may name: an operand register, `ILEN` or `IBUF` (R180). -/
inductive ReadableReg where
  | operand (r : OperandReg)
  | ilen
  | ibuf
deriving DecidableEq, Repr

/-- What `ReadResult(r)` may name: a result register, `OLEN` or `OBUF` (R180). -/
inductive ResultLoc where
  | rSync | rFeature | rCmdid | rCrypto | rSeq | rTotal | olen | obuf
deriving DecidableEq, Repr

/-- The host's actions (R180). `Start` takes any byte, assigned or not (R72, R183). -/
inductive HostAction where
  /-- `WriteReg(r, v)` (R181). -/
  | writeReg (w : OperandValue)
  /-- `LoadIBUF(bytes)` (R181). -/
  | loadIbuf (bytes : List Byte)
  /-- `Start(code)` (R182). -/
  | start (code : Byte)
  /-- `ReadStatus()` (R185, R186). -/
  | readStatus
  /-- `ReadReg(r)` (R186). -/
  | readReg (r : ReadableReg)
  /-- `ReadResult(r)` (R186). -/
  | readResult (r : ResultLoc)
  /-- `Reset()` (R230). -/
  | reset
deriving DecidableEq, Repr

/-- Which agent moves, and for the host with what (R180: either agent may step when its step is enabled). -/
inductive Turn where
  /-- The engine's step (R184). -/
  | engine
  /-- One action of the host. -/
  | host (a : HostAction)
deriving DecidableEq, Repr

/-- A value a host read returns. -/
inductive Value where
  | byte (v : Byte)
  | half (v : U16)
  | word (v : U32)
  | block (v : Block)
  | bytes (v : List Byte)
deriving DecidableEq, Repr

/-- A host read's answer: the register read and the value returned (R186). -/
structure Reply where
  reg : Reg
  value : Value
deriving DecidableEq, Repr

end Sys2Proof
end

