-- ==== Sys2Proof/Machine/State.lean ====
section
/-!
DEFINITION. The engine's architectural state (spec 10_state.md R10), the state after reset (R32), and the
reasons a step can stop.
-/

namespace Sys2Proof.Machine

/-- The phase (R30). -/
inductive Phase where
  | idle | busy | done
deriving DecidableEq, Repr

/-- The error codes of 60_exceptions.md R200; its codes 10 to 15 are never produced. -/
inductive ErrCode where
  | ok | tooShort | badHead | lengthMismatch | badTerminator
  | wlNull | badCipherLen | fieldRange | bufOverflow | badOp
deriving DecidableEq, Repr

/-- The values of `STATUS.DIR` (R16, R21). -/
inductive Direction where
  | none | hostToPeripheral | peripheralToHost | unknown
deriving DecidableEq, Repr

/-- The bytes of one buffer as (index, byte) pairs. The canonical form of a buffer of length `n` lists the
indices 0 to `n - 1` in rising order (20_memory.md R40); an index that is not listed holds no byte (log
entry 9). -/
abbrev Memory := List Host.Cell

/-- The operand registers (R11). `none` is the spec's `NOVALUE` (R23). -/
structure OperandRegs where
  sync : Option Byte
  feature : Option U16
  cmdid : Option U16
  crypto : Option Byte
  seq : Option Byte
  result : Option Byte
  key : Option Block
  iv : Option Block
deriving DecidableEq, Repr

/-- The result registers (R15). `none` is the spec's `NOVALUE` (R23). -/
structure ResultRegs where
  rSync : Option Byte
  rFeature : Option U16
  rCmdid : Option U16
  rCrypto : Option Byte
  rSeq : Option Byte
  rTotal : Option U32
deriving DecidableEq, Repr

/-- The fields of `STATUS` that an operation's completion writes (R16, R21). -/
structure Flags where
  csumOk : Bool
  dir : Direction
  err : ErrCode
deriving DecidableEq, Repr

/-- The state of the engine (R10), and the two fields by which the model holds the host (log entry 2).
`ILEN`, `OLEN` and `STATUS` are views of what is stored here (log entry 10). -/
structure State where
  /-- The operand registers (R11). -/
  opnd : OperandRegs
  /-- `IBUF`, and with it `ILEN` (R13). -/
  ibuf : Memory
  /-- `OBUF`, and with it `OLEN`; `none` is `NOVALUE` (R14). -/
  obuf : Option Memory
  /-- The result registers (R15). -/
  res : ResultRegs
  /-- `STATUS.CSUM_OK`, `STATUS.DIR`, `STATUS.ERR` (R16). -/
  flags : Flags
  /-- The command latch `OP`; `none` is `NOVALUE` (R17). -/
  op : Option Byte
  /-- The phase (R30), and with it `STATUS.DONE` and `STATUS.BUSY`. -/
  phase : Phase
  /-- The model's own: the turns still to be taken, first to move first (R180; log entry 2). -/
  script : List Turn
  /-- The model's own: what the host's reads have returned, oldest first (R186; log entry 2). -/
  replies : List Reply
deriving DecidableEq, Repr

/-- Every operand register `NOVALUE` (R32). -/
def OperandRegs.novalue : OperandRegs := ⟨none, none, none, none, none, none, none, none⟩

/-- Every result register `NOVALUE` (R15, R32). -/
def ResultRegs.novalue : ResultRegs := ⟨none, none, none, none, none, none⟩

/-- `CSUM_OK`, `DIR` and `ERR` all 0 (R16). -/
def Flags.clear : Flags := ⟨false, .none, .ok⟩

/-- The engine right after reset (R32, R230), the host with nothing to do (log entry 2). -/
def State.reset : State where
  opnd := OperandRegs.novalue
  ibuf := []
  obuf := none
  res := ResultRegs.novalue
  flags := Flags.clear
  op := none
  phase := .idle
  script := []
  replies := []

/-- Why a run stops with no step to make. -/
inductive Fault where
  /-- Raised by the step when the script is empty and the phase is not `BUSY`: no agent has an enabled step and
  the run has ended well (R189; log entry 12). Safe: a stuck state. -/
  | runEnded
  /-- Raised by the step when the script gives the engine a turn and the phase is not `BUSY`: the engine's step is
  not enabled (R184; log entry 12). Safe: a stuck state. -/
  | engineNotEnabled
deriving DecidableEq, Repr

/-- Why the model gives a step no meaning. -/
inductive Refusal where
  /-- Raised by an arm of `exec` whose instruction has no meaning yet. Safe. -/
  | notModelled (mnemonic : String)
  /-- Raised by `Start`, and by an operation itself, when an operand register that the operation reads holds
  `NOVALUE` (R183, R23). Safe: hardware would run on whatever the register held. -/
  | operandNoValue (r : OperandReg)
  /-- Raised by every host action but `ReadStatus` and `Reset` in phase `BUSY` (R185). Safe: hardware may ignore,
  stall or corrupt. -/
  | accessWhileBusy
  /-- Raised by `LoadIBUF` of more than `BUFCAP` bytes, which is not an action (R181). Safe. -/
  | loadTooLong
  /-- Raised by `ReadReg` and `ReadResult` of a location that holds `NOVALUE` (R186). Safe. -/
  | readNoValue (r : Reg)
  /-- Raised by `ReadResult` in phase `IDLE`, where it is not enabled (R180). Safe. -/
  | resultWhileIdle
  /-- Raised by the engine's step when `OP` holds `NOVALUE` in phase `BUSY`, a state no run reaches: every `Start`
  latches `OP` (R182; log entry 15). Safe. -/
  | commandNoValue
deriving DecidableEq, Repr

end Sys2Proof.Machine
end

