-- ==== Sys2Proof/Machine/Ops.lean ====
section
/-!
DEFINITION. The named operations on the buffers and on the state as a whole: reading and replacing a buffer
(spec 10_state.md R13, R14), the completion of an operation (45_host_interface.md R184), the error entry that every
failing operation shares (60_exceptions.md R201, R212), the invalidation a start makes (R182), and reset (R230).
-/

namespace Sys2Proof.Machine

/-- What an index that no entry lists reads as: no byte is there (20_memory.md R40; log entry 9). -/
def Memory.unlisted : Option Byte := none

/-- The byte at index `a`. -/
def Memory.read (m : Memory) (a : Nat) : Option Byte :=
  match m.find? (fun cell => cell.1 == a) with
  | some cell => some cell.2
  | none => Memory.unlisted

/-- The whole contents, first byte first. -/
def Memory.bytes (m : Memory) : List Byte := m.map (·.2)

/-- The entries of a buffer that holds `bs` from index `a` on. -/
def Memory.loadFrom (a : Nat) : List Byte → Memory
  | [] => []
  | b :: bs => (a, b) :: Memory.loadFrom (a + 1) bs

/-- The buffer that holds exactly `bs`: every write to a buffer replaces it whole (R13, R14, R181). -/
def Memory.load (bs : List Byte) : Memory := Memory.loadFrom 0 bs

/-- The canonical form: the indices 0 to the length less one, each once, in rising order (R40). -/
abbrev Memory.wf (m : Memory) : Prop := m.map (·.1) = List.range m.length

/-- The bytes of `IBUF`, that is `IBUF[0..ILEN)` (R13). -/
def State.input (s : State) : List Byte := s.ibuf.bytes

/-- The bytes of `OBUF`, none when it holds `NOVALUE` (R14). -/
def State.output (s : State) : Option (List Byte) := s.obuf.map Memory.bytes

/-- `ILEN` (R13). -/
def State.ilen (s : State) : U32 := BitVec.ofNat 32 s.ibuf.length

/-- `OLEN`, `NOVALUE` exactly when `OBUF` is (R14). -/
def State.olen (s : State) : Option U32 := s.obuf.map fun m => BitVec.ofNat 32 m.length

/-- How an operation ends: with its results (R15: the registers its rule names hold values, the others
`NOVALUE`), or with one error code and no result (R201). -/
inductive Ending where
  /-- Success: the contents of `OBUF`, the result registers, `CSUM_OK` and `DIR`. -/
  | success (out : List Byte) (res : ResultRegs) (csumOk : Bool) (dir : Direction)
  /-- `fail <Name>`. -/
  | failure (e : ErrCode)
deriving DecidableEq, Repr

/-- Success with a byte sequence and nothing else: `CSUM_OK` and `DIR` 0, no result register (R21). -/
def Ending.bytes (out : List Byte) : Ending := .success out ResultRegs.novalue false .none

/-- Error entry, the one every failing operation takes (R201, R212): phase `DONE`, the code in `ERR`, the other
flags 0, no result; operands and `IBUF` stay. There is no return from it (R213): the next start clears it. -/
def State.failWith (s : State) (e : ErrCode) : State :=
  { s with
    obuf := none
    res := ResultRegs.novalue
    flags := ⟨false, .none, e⟩
    phase := .done }

/-- Completion with results (R184): phase `DONE`, `ERR = OK`, all results at once. -/
def State.succeedWith (s : State) (out : List Byte) (res : ResultRegs) (csumOk : Bool) (dir : Direction) : State :=
  { s with
    obuf := some (Memory.load out)
    res := res
    flags := ⟨csumOk, dir, .ok⟩
    phase := .done }

/-- The one indivisible write by which the engine's step ends an operation (R184). -/
def State.complete (s : State) : Ending → State
  | .success out res csumOk dir => s.succeedWith out res csumOk dir
  | .failure e => s.failWith e

/-- The effect of a start (R182): `OP` latched, phase `BUSY`, flags 0, results invalidated. -/
def State.started (s : State) (code : Byte) : State :=
  { s with
    obuf := none
    res := ResultRegs.novalue
    flags := Flags.clear
    op := some code
    phase := .busy }

/-- The effect of a reset (R230, R32): the reset values; what the host has left to do and has read is the host's
own and stays (log entry 20). -/
def State.resetEngine (s : State) : State :=
  { State.reset with
    script := s.script
    replies := s.replies }

end Sys2Proof.Machine
end

