-- ==== Sys2Proof/Machine/Operands.lean ====
section
/-!
DEFINITION. The forms in which operations and host actions reach their operands: byte order of fields and blocks
(spec 00_scope.md R6 to R8, 20_memory.md R41 to R43), the operand registers each operation reads
(30_encoding.md R71), register names and numbers (10_state.md R24), and reading a register that may hold `NOVALUE`.
-/

namespace Sys2Proof

/-- `BE16(v)`, most significant byte first (R7, R41). -/
def be16 (v : U16) : List Byte := [v.extractLsb' 8 8, v.extractLsb' 0 8]

/-- `LE16(v)`, least significant byte first (R7, R42). -/
def le16 (v : U16) : List Byte := [v.extractLsb' 0 8, v.extractLsb' 8 8]

/-- `B[i]`. Every use stands behind the length check that puts `i` in range (R8, R48). -/
def byteAt (B : List Byte) (i : Nat) : Byte := B.getD i 0

/-- `rdBE16(B, i)` (R7). -/
def rdBE16 (B : List Byte) (i : Nat) : U16 := byteAt B i ++ byteAt B (i + 1)

/-- `rdLE16(B, i)` (R7). -/
def rdLE16 (B : List Byte) (i : Nat) : U16 := byteAt B (i + 1) ++ byteAt B i

/-- `B[a..b)` (R6). -/
def slice (B : List Byte) (a b : Nat) : List Byte := (B.take b).drop a

/-- The sixteen bytes of a block, `b0` first (R12, R43). -/
def Block.bytes (k : Block) : List Byte :=
  [k.b0, k.b1, k.b2, k.b3, k.b4, k.b5, k.b6, k.b7, k.b8, k.b9, k.b10, k.b11, k.b12, k.b13, k.b14, k.b15]

/-- The block whose bytes are the first sixteen of `B` (R43, R101). -/
def Block.ofBytes (B : List Byte) : Block :=
  ⟨byteAt B 0, byteAt B 1, byteAt B 2, byteAt B 3, byteAt B 4, byteAt B 5, byteAt B 6, byteAt B 7,
    byteAt B 8, byteAt B 9, byteAt B 10, byteAt B 11, byteAt B 12, byteAt B 13, byteAt B 14, byteAt B 15⟩

/-- Byte by byte exclusive or of two blocks (R6). -/
def Block.xor (x y : Block) : Block :=
  ⟨x.b0 ^^^ y.b0, x.b1 ^^^ y.b1, x.b2 ^^^ y.b2, x.b3 ^^^ y.b3, x.b4 ^^^ y.b4, x.b5 ^^^ y.b5, x.b6 ^^^ y.b6,
    x.b7 ^^^ y.b7, x.b8 ^^^ y.b8, x.b9 ^^^ y.b9, x.b10 ^^^ y.b10, x.b11 ^^^ y.b11, x.b12 ^^^ y.b12,
    x.b13 ^^^ y.b13, x.b14 ^^^ y.b14, x.b15 ^^^ y.b15⟩

/-- The "reads" column of R71: the operand registers an operation's rule reads. -/
def Instr.reads : Instr → List OperandReg
  | .csumAdd => []
  | .csumXor => []
  | .aesEnc => [.key, .iv]
  | .aesDec => [.key, .iv]
  | .wdBuild => [.sync, .feature, .cmdid]
  | .wdParse => []
  | .wdResp => [.cmdid, .seq, .result]
  | .wlBuild => [.cmdid, .crypto, .seq]
  | .wlParse => []

/-- The register numbers of R24. -/
def Reg.number : Reg → Nat
  | .op => 0
  | .status => 1
  | .sync => 2
  | .feature => 3
  | .cmdid => 4
  | .crypto => 5
  | .seq => 6
  | .result => 7
  | .key => 8
  | .iv => 9
  | .ilen => 10
  | .ibuf => 11
  | .olen => 12
  | .obuf => 13
  | .rSync => 14
  | .rFeature => 15
  | .rCmdid => 16
  | .rCrypto => 17
  | .rSeq => 18
  | .rTotal => 19

/-- The register an operand register's name stands for in R24. -/
def OperandReg.reg : OperandReg → Reg
  | .sync => .sync
  | .feature => .feature
  | .cmdid => .cmdid
  | .crypto => .crypto
  | .seq => .seq
  | .result => .result
  | .key => .key
  | .iv => .iv

/-- The register a readable name stands for in R24. -/
def ReadableReg.reg : ReadableReg → Reg
  | .operand r => r.reg
  | .ilen => .ilen
  | .ibuf => .ibuf

/-- The register a result name stands for in R24. -/
def ResultLoc.reg : ResultLoc → Reg
  | .rSync => .rSync
  | .rFeature => .rFeature
  | .rCmdid => .rCmdid
  | .rCrypto => .rCrypto
  | .rSeq => .rSeq
  | .rTotal => .rTotal
  | .olen => .olen
  | .obuf => .obuf

end Sys2Proof

namespace Sys2Proof.Machine

/-- The value an operand register holds, none for `NOVALUE` (R11, R23). -/
def OperandRegs.get (o : OperandRegs) : OperandReg → Option Value
  | .sync => o.sync.map .byte
  | .feature => o.feature.map .half
  | .cmdid => o.cmdid.map .half
  | .crypto => o.crypto.map .byte
  | .seq => o.seq.map .byte
  | .result => o.result.map .byte
  | .key => o.key.map .block
  | .iv => o.iv.map .block

/-- Writing one operand register (R181): only the one named changes. -/
def OperandRegs.set (o : OperandRegs) : OperandValue → OperandRegs
  | .sync v => { o with sync := some v }
  | .feature v => { o with feature := some v }
  | .cmdid v => { o with cmdid := some v }
  | .crypto v => { o with crypto := some v }
  | .seq v => { o with seq := some v }
  | .result v => { o with result := some v }
  | .key v => { o with key := some v }
  | .iv v => { o with iv := some v }

/-- The first register of an operation's "reads" list that holds `NOVALUE` (R71, R183). -/
def OperandRegs.missing (o : OperandRegs) (i : Instr) : Option OperandReg :=
  i.reads.find? fun r => (o.get r).isNone

/-- Every operand register that the operation reads holds a value (R183, R231). -/
def OperandRegs.ready (o : OperandRegs) (i : Instr) : Prop := ∀ r ∈ i.reads, (o.get r).isSome

/-- Reading an operand in an operation's rule: on with its value, or refused where it holds `NOVALUE` (R23, R183;
log entry 15). -/
def needOperand {α : Type} (o : Option α) (r : OperandReg)
    (k : α → Host.Outcome State Fault Refusal) : Host.Outcome State Fault Refusal :=
  match o with
  | some v => k v
  | none => .refused (.operandNoValue r)

/-- What `ReadReg` returns, none for `NOVALUE` (R186); `ILEN` and `IBUF` always hold a value (R13). -/
def State.readable (s : State) : ReadableReg → Option Value
  | .operand r => s.opnd.get r
  | .ilen => some (.word s.ilen)
  | .ibuf => some (.bytes s.input)

/-- What `ReadResult` returns, none for `NOVALUE` (R186). -/
def State.resultAt (s : State) : ResultLoc → Option Value
  | .rSync => s.res.rSync.map .byte
  | .rFeature => s.res.rFeature.map .half
  | .rCmdid => s.res.rCmdid.map .half
  | .rCrypto => s.res.rCrypto.map .byte
  | .rSeq => s.res.rSeq.map .byte
  | .rTotal => s.res.rTotal.map .word
  | .olen => s.olen.map .word
  | .obuf => s.output.map .bytes

end Sys2Proof.Machine
end

