-- ==== Sys2Proof/Machine/Checksum.lean ====
section
/-!
DEFINITION. The checksum generator: `CSUM_ADD` and `CSUM_XOR` (spec 40_checksum.md R90 to R93).
-/

namespace Sys2Proof.Machine

/-- `CSUM_ADD(B)`: the two's complement of the sum modulo 256 (R90, R93). -/
def csumAdd (B : List Byte) : Byte := ~~~(B.foldl (fun s b => s + b) 0) + 1

/-- `CSUM_XOR(B)`: the XOR fold (R91). -/
def csumXor (B : List Byte) : Byte := B.foldl (fun s b => s ^^^ b) 0

/-- `CSUM_ADD`: one byte, never an error (R90). -/
def execCsumAdd (s : State) : Host.Outcome State Fault Refusal :=
  .next (s.complete (.bytes [csumAdd s.input]))

/-- `CSUM_XOR`: one byte, never an error (R91). -/
def execCsumXor (s : State) : Host.Outcome State Fault Refusal :=
  .next (s.complete (.bytes [csumXor s.input]))

end Sys2Proof.Machine
end

