-- ==== Sys2Proof/Config.lean ====
section
/-!
DEFINITION. The implementation parameters of spec 00_scope.md R4: the record `Params`, its derived values, the
one unconstrained record of this engine (`Config.params`), and the constants whose value the spec prints.
-/

namespace Sys2Proof

/-- The named values of R4 that the spec leaves OPEN, held so that every record of this type meets R4's
constraints and every assignment that meets them is some record (log entries 5 to 8). -/
structure Params where
  /-- `HEAD`. -/
  head : Byte
  /-- `SYNC_H2P`. -/
  syncH2P : Byte
  /-- `SYNC_P2H - SYNC_H2P - 1`, 0 to 254, so that the two sync values differ (R4; log entry 6). -/
  syncGap : Fin 255
  /-- `TERM[0]`, sent first. -/
  term0 : Byte
  /-- `TERM[1]`. -/
  term1 : Byte
  /-- `FEATURE_REPLY`. -/
  featureReply : U16
  /-- `WL_HDR`. -/
  wlHdr : U16
  /-- `WL_FTR`. -/
  wlFtr : U16
  /-- `K_DEFAULT`. -/
  kDefault : Block
  /-- Whether `WD_MIN` is the source's literal 10 rather than 11 (R145; log entry 8). -/
  wdMinIsTen : Bool
  /-- `BUFCAP - 272`; `BUFCAP` fits the 32-bit length registers (R4, R13; log entry 7). -/
  bufSpare : Fin 4294967024
deriving DecidableEq, Repr, Inhabited

/-- `SYNC_P2H` (R4), by construction another byte than `SYNC_H2P`. -/
def Params.syncP2H (P : Params) : Byte := P.syncH2P + 1 + BitVec.ofNat 8 P.syncGap.val

/-- `WD_MIN`, 10 or 11 (R4, R145). -/
def Params.wdMin (P : Params) : Nat := (if P.wdMinIsTen then 0 else 1) + 10

/-- `BUFCAP`, the capacity in bytes of each buffer, at least 272 (R4). -/
def Params.bufCap (P : Params) : Nat := P.bufSpare.val + 272

/-- Whether `n` bytes fit a buffer, that is `n <= BUFCAP`. The first alternative is implied by the second's
bound `272 <= BUFCAP`; it lets a small `n` be decided without knowing `BUFCAP`. -/
def Params.fits (P : Params) (n : Nat) : Bool := decide (n ≤ 272) || decide (n ≤ P.bufCap)

/-- The parameters of this engine: fixed and unknown (R4, R18). No body: nothing can be proved of a value. -/
opaque Config.params : Params

/-- `IV_DEFAULT`, sixteen zero bytes, from the source (R4). -/
def Config.ivDefault : Block := Block.zero

/-- `CT_AES`, the one `crypto_type` value that selects encryption (R4, R64). -/
def Config.ctAes : Byte := 0x02

/-- `CT_NONE` (R4, R64). -/
def Config.ctNone : Byte := 0x00

/-- `CT_3DES`, reserved, treated as any value but `CT_AES` (R64, R73). -/
def Config.ct3Des : Byte := 0x01

/-- `WD_OVERHEAD`, the wired frame's fixed bytes (R4, R60). -/
def Config.wdOverhead : Nat := 11

/-- `WL_OVERHEAD`, the wireless frame's fixed bytes (R4, R61). -/
def Config.wlOverhead : Nat := 10

end Sys2Proof
end

