-- ==== Sys2Proof/Machine/Flags.lean ====
section
/-!
DEFINITION. The flags and the `STATUS` word (spec 10_state.md R16, R21; 60_exceptions.md R200), and the direction a
wired parse reports (43_wired_frame.md R147).
-/

namespace Sys2Proof.Machine

/-- The number of an error code (R200). -/
def ErrCode.code : ErrCode → BitVec 4
  | .ok => 0
  | .tooShort => 1
  | .badHead => 2
  | .lengthMismatch => 3
  | .badTerminator => 4
  | .wlNull => 5
  | .badCipherLen => 6
  | .fieldRange => 7
  | .bufOverflow => 8
  | .badOp => 9

/-- The two bits of `STATUS.DIR` (R16). -/
def Direction.code : Direction → BitVec 2
  | .none => 0
  | .hostToPeripheral => 1
  | .peripheralToHost => 2
  | .unknown => 3

/-- `STATUS.DONE` (R16). -/
def Phase.doneBit : Phase → BitVec 1
  | .idle => 0
  | .busy => 0
  | .done => 1

/-- `STATUS.BUSY` (R16). -/
def Phase.busyBit : Phase → BitVec 1
  | .idle => 0
  | .busy => 1
  | .done => 0

/-- The 16-bit `STATUS` word, bit 15 first: reserved, `ERR`, reserved, `DIR`, `CSUM_OK`, `BUSY`, `DONE` (R16). -/
def State.status (s : State) : U16 :=
  (0 : BitVec 4) ++ s.flags.err.code ++ (0 : BitVec 3) ++ s.flags.dir.code ++ BitVec.ofBool s.flags.csumOk
    ++ s.phase.busyBit ++ s.phase.doneBit

/-- `DirectionOf(s)` (R147). -/
def directionOf (P : Params) (sync : Byte) : Direction :=
  if sync = P.syncH2P then .hostToPeripheral
  else if sync = P.syncP2H then .peripheralToHost
  else .unknown

end Sys2Proof.Machine
end

