-- ==== Sys2Proof/Machine/Wired.lean ====
section
/-!
DEFINITION. The wired frame marshaller and parser: `WD_BUILD`, `WD_PARSE`, `WD_RESP` (spec 43_wired_frame.md R140 to
R147; layout 30_encoding.md R60, R62).
-/

namespace Sys2Proof.Machine

/-- The bytes a wired frame's checksum covers, head to payload (R60, R141). -/
def wiredBody (P : Params) (sync : Byte) (feature cmdid : U16) (payload : List Byte) : List Byte :=
  [P.head] ++ [sync] ++ be16 feature ++ be16 cmdid ++ be16 (BitVec.ofNat 16 payload.length) ++ payload

/-- `WIRED_FRAME(sync, feature, command_id, payload)` (R141). -/
def wiredFrame (P : Params) (sync : Byte) (feature cmdid : U16) (payload : List Byte) : List Byte :=
  let body := wiredBody P sync feature cmdid payload
  body ++ [csumAdd body] ++ [P.term0, P.term1]

/-- How a wired build ends (R140): the field's range first, then the buffer's. -/
def wiredBuildEnding (P : Params) (sync : Byte) (feature cmdid : U16) (payload : List Byte) : Ending :=
  if 65535 < payload.length then .failure .fieldRange
  else if P.fits (Config.wdOverhead + payload.length) then .bytes (wiredFrame P sync feature cmdid payload)
  else .failure .bufOverflow

/-- How `WD_PARSE` ends on the buffer `B` (R144): four structural checks in order (R145), then the fields; a wrong
checksum is a flag, not an error (R146). -/
def wiredParseEnding (P : Params) (B : List Byte) : Ending :=
  let L := B.length
  if L < P.wdMin then .failure .tooShort
  else if byteAt B 0 ≠ P.head then .failure .badHead
  else
    let length := (rdBE16 B 6).toNat
    if Config.wdOverhead + length ≠ L then .failure .lengthMismatch
    else if byteAt B (L - 2) ≠ P.term0 ∨ byteAt B (L - 1) ≠ P.term1 then .failure .badTerminator
    else
      .success (slice B 8 (8 + length))
        { ResultRegs.novalue with
          rSync := some (byteAt B 1)
          rFeature := some (rdBE16 B 2)
          rCmdid := some (rdBE16 B 4)
          rTotal := some (BitVec.ofNat 32 L) }
        (csumAdd (slice B 0 (8 + length)) == byteAt B (8 + length))
        (directionOf P (byteAt B 1))

/-- `WD_BUILD` (R140). -/
def execWdBuild (s : State) : Host.Outcome State Fault Refusal :=
  needOperand s.opnd.sync .sync fun sync =>
  needOperand s.opnd.feature .feature fun feature =>
  needOperand s.opnd.cmdid .cmdid fun cmdid =>
  .next (s.complete (wiredBuildEnding Config.params sync feature cmdid s.input))

/-- `WD_PARSE` (R144). -/
def execWdParse (s : State) : Host.Outcome State Fault Refusal :=
  .next (s.complete (wiredParseEnding Config.params s.input))

/-- `WD_RESP`: a wired build of `[SEQ, RESULT] ++ IBUF` with `SYNC_P2H` and `FEATURE_REPLY` (R76, R143). -/
def execWdResp (s : State) : Host.Outcome State Fault Refusal :=
  needOperand s.opnd.cmdid .cmdid fun cmdid =>
  needOperand s.opnd.seq .seq fun seq =>
  needOperand s.opnd.result .result fun result =>
  .next (s.complete (wiredBuildEnding Config.params Config.params.syncP2H Config.params.featureReply cmdid
    ([seq, result] ++ s.input)))

end Sys2Proof.Machine
end

