-- ==== Sys2Proof/Machine/AesBlock.lean ====
section
/-!
DEFINITION. The AES-128 block cipher, forward and inverse (spec 41_aes_block.md R100 to R115; the whole file is
marked from general knowledge there, log entry 11).
-/

namespace Sys2Proof.Machine

/-- Multiplication by `x` in GF(2^8) modulo `0x11B` (R102). -/
def xtime (a : Byte) : Byte :=
  let t : BitVec 9 := a.setWidth 9 <<< 1
  (if 256 ≤ t.toNat then t ^^^ 0x11B else t).setWidth 8

/-- The shift-and-add loop of `gmul`, at most `fuel` rounds (R102, R234). -/
def gmulLoop : Nat → Byte → Byte → Byte → Byte
  | 0, r, _, _ => r
  | fuel + 1, r, a, b =>
    if b = 0 then r else gmulLoop fuel (if b.getLsbD 0 then r ^^^ a else r) (xtime a) (b >>> 1)

/-- Multiplication in GF(2^8) (R102): eight rounds empty any byte `b`. -/
def gmul (a b : Byte) : Byte := gmulLoop 8 0 a b

/-- `SBOX` (R103), rows 0x to 7x: row the high nibble of the input, column the low nibble. -/
def sboxRowsLow : List (List Byte) :=
  [
    [0x63, 0x7C, 0x77, 0x7B, 0xF2, 0x6B, 0x6F, 0xC5, 0x30, 0x01, 0x67, 0x2B, 0xFE, 0xD7, 0xAB, 0x76],
    [0xCA, 0x82, 0xC9, 0x7D, 0xFA, 0x59, 0x47, 0xF0, 0xAD, 0xD4, 0xA2, 0xAF, 0x9C, 0xA4, 0x72, 0xC0],
    [0xB7, 0xFD, 0x93, 0x26, 0x36, 0x3F, 0xF7, 0xCC, 0x34, 0xA5, 0xE5, 0xF1, 0x71, 0xD8, 0x31, 0x15],
    [0x04, 0xC7, 0x23, 0xC3, 0x18, 0x96, 0x05, 0x9A, 0x07, 0x12, 0x80, 0xE2, 0xEB, 0x27, 0xB2, 0x75],
    [0x09, 0x83, 0x2C, 0x1A, 0x1B, 0x6E, 0x5A, 0xA0, 0x52, 0x3B, 0xD6, 0xB3, 0x29, 0xE3, 0x2F, 0x84],
    [0x53, 0xD1, 0x00, 0xED, 0x20, 0xFC, 0xB1, 0x5B, 0x6A, 0xCB, 0xBE, 0x39, 0x4A, 0x4C, 0x58, 0xCF],
    [0xD0, 0xEF, 0xAA, 0xFB, 0x43, 0x4D, 0x33, 0x85, 0x45, 0xF9, 0x02, 0x7F, 0x50, 0x3C, 0x9F, 0xA8],
    [0x51, 0xA3, 0x40, 0x8F, 0x92, 0x9D, 0x38, 0xF5, 0xBC, 0xB6, 0xDA, 0x21, 0x10, 0xFF, 0xF3, 0xD2] ]

/-- `SBOX` (R103), rows 8x to Fx. -/
def sboxRowsHigh : List (List Byte) :=
  [
    [0xCD, 0x0C, 0x13, 0xEC, 0x5F, 0x97, 0x44, 0x17, 0xC4, 0xA7, 0x7E, 0x3D, 0x64, 0x5D, 0x19, 0x73],
    [0x60, 0x81, 0x4F, 0xDC, 0x22, 0x2A, 0x90, 0x88, 0x46, 0xEE, 0xB8, 0x14, 0xDE, 0x5E, 0x0B, 0xDB],
    [0xE0, 0x32, 0x3A, 0x0A, 0x49, 0x06, 0x24, 0x5C, 0xC2, 0xD3, 0xAC, 0x62, 0x91, 0x95, 0xE4, 0x79],
    [0xE7, 0xC8, 0x37, 0x6D, 0x8D, 0xD5, 0x4E, 0xA9, 0x6C, 0x56, 0xF4, 0xEA, 0x65, 0x7A, 0xAE, 0x08],
    [0xBA, 0x78, 0x25, 0x2E, 0x1C, 0xA6, 0xB4, 0xC6, 0xE8, 0xDD, 0x74, 0x1F, 0x4B, 0xBD, 0x8B, 0x8A],
    [0x70, 0x3E, 0xB5, 0x66, 0x48, 0x03, 0xF6, 0x0E, 0x61, 0x35, 0x57, 0xB9, 0x86, 0xC1, 0x1D, 0x9E],
    [0xE1, 0xF8, 0x98, 0x11, 0x69, 0xD9, 0x8E, 0x94, 0x9B, 0x1E, 0x87, 0xE9, 0xCE, 0x55, 0x28, 0xDF],
    [0x8C, 0xA1, 0x89, 0x0D, 0xBF, 0xE6, 0x42, 0x68, 0x41, 0x99, 0x2D, 0x0F, 0xB0, 0x54, 0xBB, 0x16] ]

/-- `ISBOX` (R104), rows 0x to 7x: row the high nibble of the input, column the low nibble. -/
def isboxRowsLow : List (List Byte) :=
  [
    [0x52, 0x09, 0x6A, 0xD5, 0x30, 0x36, 0xA5, 0x38, 0xBF, 0x40, 0xA3, 0x9E, 0x81, 0xF3, 0xD7, 0xFB],
    [0x7C, 0xE3, 0x39, 0x82, 0x9B, 0x2F, 0xFF, 0x87, 0x34, 0x8E, 0x43, 0x44, 0xC4, 0xDE, 0xE9, 0xCB],
    [0x54, 0x7B, 0x94, 0x32, 0xA6, 0xC2, 0x23, 0x3D, 0xEE, 0x4C, 0x95, 0x0B, 0x42, 0xFA, 0xC3, 0x4E],
    [0x08, 0x2E, 0xA1, 0x66, 0x28, 0xD9, 0x24, 0xB2, 0x76, 0x5B, 0xA2, 0x49, 0x6D, 0x8B, 0xD1, 0x25],
    [0x72, 0xF8, 0xF6, 0x64, 0x86, 0x68, 0x98, 0x16, 0xD4, 0xA4, 0x5C, 0xCC, 0x5D, 0x65, 0xB6, 0x92],
    [0x6C, 0x70, 0x48, 0x50, 0xFD, 0xED, 0xB9, 0xDA, 0x5E, 0x15, 0x46, 0x57, 0xA7, 0x8D, 0x9D, 0x84],
    [0x90, 0xD8, 0xAB, 0x00, 0x8C, 0xBC, 0xD3, 0x0A, 0xF7, 0xE4, 0x58, 0x05, 0xB8, 0xB3, 0x45, 0x06],
    [0xD0, 0x2C, 0x1E, 0x8F, 0xCA, 0x3F, 0x0F, 0x02, 0xC1, 0xAF, 0xBD, 0x03, 0x01, 0x13, 0x8A, 0x6B] ]

/-- `ISBOX` (R104), rows 8x to Fx. -/
def isboxRowsHigh : List (List Byte) :=
  [
    [0x3A, 0x91, 0x11, 0x41, 0x4F, 0x67, 0xDC, 0xEA, 0x97, 0xF2, 0xCF, 0xCE, 0xF0, 0xB4, 0xE6, 0x73],
    [0x96, 0xAC, 0x74, 0x22, 0xE7, 0xAD, 0x35, 0x85, 0xE2, 0xF9, 0x37, 0xE8, 0x1C, 0x75, 0xDF, 0x6E],
    [0x47, 0xF1, 0x1A, 0x71, 0x1D, 0x29, 0xC5, 0x89, 0x6F, 0xB7, 0x62, 0x0E, 0xAA, 0x18, 0xBE, 0x1B],
    [0xFC, 0x56, 0x3E, 0x4B, 0xC6, 0xD2, 0x79, 0x20, 0x9A, 0xDB, 0xC0, 0xFE, 0x78, 0xCD, 0x5A, 0xF4],
    [0x1F, 0xDD, 0xA8, 0x33, 0x88, 0x07, 0xC7, 0x31, 0xB1, 0x12, 0x10, 0x59, 0x27, 0x80, 0xEC, 0x5F],
    [0x60, 0x51, 0x7F, 0xA9, 0x19, 0xB5, 0x4A, 0x0D, 0x2D, 0xE5, 0x7A, 0x9F, 0x93, 0xC9, 0x9C, 0xEF],
    [0xA0, 0xE0, 0x3B, 0x4D, 0xAE, 0x2A, 0xF5, 0xB0, 0xC8, 0xEB, 0xBB, 0x3C, 0x83, 0x53, 0x99, 0x61],
    [0x17, 0x2B, 0x04, 0x7E, 0xBA, 0x77, 0xD6, 0x26, 0xE1, 0x69, 0x14, 0x63, 0x55, 0x21, 0x0C, 0x7D] ]

/-- `SBOX[a]` (R103). -/
def sbox (a : Byte) : Byte :=
  ((sboxRowsLow ++ sboxRowsHigh).getD (a >>> 4).toNat []).getD (a &&& 0x0F).toNat 0

/-- `ISBOX[a]` (R104). -/
def isbox (a : Byte) : Byte :=
  ((isboxRowsLow ++ isboxRowsHigh).getD (a >>> 4).toNat []).getD (a &&& 0x0F).toNat 0

/-- `RCON[j]`, `j` 1 to 10: `RCON[1] = 0x01`, `RCON[j+1] = xtime(RCON[j])` (R105). -/
def rcon : Nat → Byte
  | 0 => 0
  | 1 => 0x01
  | j + 2 => xtime (rcon (j + 1))

/-- Byte by byte exclusive or of two words. -/
def Word4.xor (x y : Word4) : Word4 := ⟨x.a0 ^^^ y.a0, x.a1 ^^^ y.a1, x.a2 ^^^ y.a2, x.a3 ^^^ y.a3⟩

/-- `RotWord` (R106). -/
def rotWord (t : Word4) : Word4 := ⟨t.a1, t.a2, t.a3, t.a0⟩

/-- `SubWord` (R106). -/
def subWord (t : Word4) : Word4 := ⟨sbox t.a0, sbox t.a1, sbox t.a2, sbox t.a3⟩

/-- The word `t` of R106's loop at index `i`, from `w[i-1]`. -/
def scheduleTemp (i : Nat) (t : Word4) : Word4 :=
  if i % 4 = 0 then Word4.xor (subWord (rotWord t)) ⟨rcon (i / 4), 0, 0, 0⟩ else t

/-- `n` rounds of R106's loop from index `i`, the words so far newest first. -/
def scheduleLoop : Nat → Nat → List Word4 → List Word4
  | 0, _, ws => ws
  | n + 1, i, ws =>
    scheduleLoop n (i + 1) (Word4.xor (ws.getD 3 default) (scheduleTemp i (ws.getD 0 default)) :: ws)

/-- `KeyExpansion(key)`: the 44 words `w[0]` to `w[43]` (R106). -/
def keyExpansion (k : Block) : List Word4 :=
  (scheduleLoop 40 4
    [⟨k.b12, k.b13, k.b14, k.b15⟩, ⟨k.b8, k.b9, k.b10, k.b11⟩, ⟨k.b4, k.b5, k.b6, k.b7⟩,
      ⟨k.b0, k.b1, k.b2, k.b3⟩]).reverse

/-- A block from its four columns. -/
def blockOfColumns (c0 c1 c2 c3 : Word4) : Block :=
  ⟨c0.a0, c0.a1, c0.a2, c0.a3, c1.a0, c1.a1, c1.a2, c1.a3, c2.a0, c2.a1, c2.a2, c2.a3, c3.a0, c3.a1, c3.a2, c3.a3⟩

/-- `RoundKey(w, r)`, `r` 0 to 10 (R106). -/
def roundKey (w : List Word4) (r : Nat) : Block :=
  blockOfColumns (w.getD (4 * r) default) (w.getD (4 * r + 1) default) (w.getD (4 * r + 2) default)
    (w.getD (4 * r + 3) default)

/-- The same byte function on every byte of the state. -/
def mapBytes (f : Byte → Byte) (x : Block) : Block :=
  ⟨f x.b0, f x.b1, f x.b2, f x.b3, f x.b4, f x.b5, f x.b6, f x.b7, f x.b8, f x.b9, f x.b10, f x.b11, f x.b12,
    f x.b13, f x.b14, f x.b15⟩

/-- The same column function on every column of the state. -/
def mapColumns (f : Word4 → Word4) (x : Block) : Block :=
  blockOfColumns (f ⟨x.b0, x.b1, x.b2, x.b3⟩) (f ⟨x.b4, x.b5, x.b6, x.b7⟩) (f ⟨x.b8, x.b9, x.b10, x.b11⟩)
    (f ⟨x.b12, x.b13, x.b14, x.b15⟩)

/-- `AddRoundKey` (R107). -/
def addRoundKey (x k : Block) : Block := Block.xor x k

/-- `SubBytes` (R108). -/
def subBytes (x : Block) : Block := mapBytes sbox x

/-- `ShiftRows`: byte `i` of the result is the byte of the state at the index list of R109. -/
def shiftRows (x : Block) : Block :=
  ⟨x.b0, x.b5, x.b10, x.b15, x.b4, x.b9, x.b14, x.b3, x.b8, x.b13, x.b2, x.b7, x.b12, x.b1, x.b6, x.b11⟩

/-- One column of `MixColumns` (R110). -/
def mixColumn (a : Word4) : Word4 :=
  ⟨gmul a.a0 2 ^^^ gmul a.a1 3 ^^^ a.a2 ^^^ a.a3,
    a.a0 ^^^ gmul a.a1 2 ^^^ gmul a.a2 3 ^^^ a.a3,
    a.a0 ^^^ a.a1 ^^^ gmul a.a2 2 ^^^ gmul a.a3 3,
    gmul a.a0 3 ^^^ a.a1 ^^^ a.a2 ^^^ gmul a.a3 2⟩

/-- `MixColumns` (R110). -/
def mixColumns (x : Block) : Block := mapColumns mixColumn x

/-- Rounds 1 to 9 of the forward cipher, one of them (R111). -/
def encRound (w : List Word4) (x : Block) (r : Nat) : Block :=
  addRoundKey (mixColumns (shiftRows (subBytes x))) (roundKey w r)

/-- `AES128_ENC_BLOCK` (R111). -/
def aesEncBlock (key block : Block) : Block :=
  let w := keyExpansion key
  let x := [1, 2, 3, 4, 5, 6, 7, 8, 9].foldl (encRound w) (addRoundKey block (roundKey w 0))
  addRoundKey (shiftRows (subBytes x)) (roundKey w 10)

/-- `InvSubBytes` (R112). -/
def invSubBytes (x : Block) : Block := mapBytes isbox x

/-- `InvShiftRows`, the index list of R113. -/
def invShiftRows (x : Block) : Block :=
  ⟨x.b0, x.b13, x.b10, x.b7, x.b4, x.b1, x.b14, x.b11, x.b8, x.b5, x.b2, x.b15, x.b12, x.b9, x.b6, x.b3⟩

/-- One column of `InvMixColumns` (R114). -/
def invMixColumn (a : Word4) : Word4 :=
  ⟨gmul a.a0 0x0E ^^^ gmul a.a1 0x0B ^^^ gmul a.a2 0x0D ^^^ gmul a.a3 0x09,
    gmul a.a0 0x09 ^^^ gmul a.a1 0x0E ^^^ gmul a.a2 0x0B ^^^ gmul a.a3 0x0D,
    gmul a.a0 0x0D ^^^ gmul a.a1 0x09 ^^^ gmul a.a2 0x0E ^^^ gmul a.a3 0x0B,
    gmul a.a0 0x0B ^^^ gmul a.a1 0x0D ^^^ gmul a.a2 0x09 ^^^ gmul a.a3 0x0E⟩

/-- `InvMixColumns` (R114). -/
def invMixColumns (x : Block) : Block := mapColumns invMixColumn x

/-- Rounds 9 down to 1 of the inverse cipher, one of them (R115). -/
def decRound (w : List Word4) (x : Block) (r : Nat) : Block :=
  invMixColumns (addRoundKey (invSubBytes (invShiftRows x)) (roundKey w r))

/-- `AES128_DEC_BLOCK` (R115). -/
def aesDecBlock (key block : Block) : Block :=
  let w := keyExpansion key
  let x := [9, 8, 7, 6, 5, 4, 3, 2, 1].foldl (decRound w) (addRoundKey block (roundKey w 10))
  addRoundKey (invSubBytes (invShiftRows x)) (roundKey w 0)

end Sys2Proof.Machine
end

