-- ==== Sys2Proof/Machine/AesCbc.lean ====
section
/-!
DEFINITION. CBC mode with PKCS#7 padding and the operations `AES_ENC` and `AES_DEC` (spec 42_aes_cbc.md R120 to
R127).
-/

namespace Sys2Proof.Machine

/-- `PKCS7_PAD(P)` (R120). -/
def pkcs7Pad (P : List Byte) : List Byte :=
  let n := 16 - P.length % 16
  P ++ List.replicate n (BitVec.ofNat 8 n)

/-- `PKCS7_UNPAD_SOFT(D)` (R123, R127): the claimed pad length is bounded by the length of `D`, not by 16, and
a malformed pad returns `D` whole. -/
def unpadSoft (D : List Byte) : List Byte :=
  match D.getLast? with
  | none => D
  | some last =>
    let p := last.toNat
    if 1 ≤ p ∧ p ≤ D.length ∧ (D.drop (D.length - p)).all (fun b => b == last) then D.take (D.length - p) else D

/-- The first `m` blocks of a byte sequence, `M[16(i-1) .. 16i)` for `i` 1 to `m` (R122). -/
def blocksOf : Nat → List Byte → List Block
  | 0, _ => []
  | m + 1, B => Block.ofBytes B :: blocksOf m (B.drop 16)

/-- The chaining of R122: `C_i = AES128_ENC_BLOCK(key, M_i ^ C_(i-1))`. -/
def chainEnc (key : Block) : Block → List Block → List Block
  | _, [] => []
  | prev, m :: ms =>
    let c := aesEncBlock key (Block.xor m prev)
    c :: chainEnc key c ms

/-- The unchaining of R125: `D_i = AES128_DEC_BLOCK(key, C_i) ^ C_(i-1)`. -/
def chainDec (key : Block) : Block → List Block → List Block
  | _, [] => []
  | prev, c :: cs => Block.xor (aesDecBlock key c) prev :: chainDec key c cs

/-- `AES_CBC_ENC(P, key, iv)` (R122). -/
def aesCbcEnc (P : List Byte) (key iv : Block) : List Byte :=
  let M := pkcs7Pad P
  (chainEnc key iv (blocksOf (M.length / 16) M)).flatMap Block.bytes

/-- The decrypted message before padding removal (R125). -/
def aesCbcUnchain (C : List Byte) (key iv : Block) : List Byte :=
  (chainDec key iv (blocksOf (C.length / 16) C)).flatMap Block.bytes

/-- `AES_CBC_DEC(C, key, iv)` (R125): the length check comes first. -/
def aesCbcDec (C : List Byte) (key iv : Block) : Except ErrCode (List Byte) :=
  if C.length % 16 ≠ 0 then .error .badCipherLen else .ok (unpadSoft (aesCbcUnchain C key iv))

/-- How `AES_ENC` ends (R121). -/
def aesEncEnding (P : Params) (key iv : Block) (plain : List Byte) : Ending :=
  if P.fits (16 * (plain.length / 16 + 1)) then .bytes (aesCbcEnc plain key iv) else .failure .bufOverflow

/-- How `AES_DEC` ends (R124). -/
def aesDecEnding (key iv : Block) (cipher : List Byte) : Ending :=
  match aesCbcDec cipher key iv with
  | .ok plain => .bytes plain
  | .error e => .failure e

/-- `AES_ENC`: `IBUF` encrypted under `KEY` and `IV` (R121). -/
def execAesEnc (s : State) : Host.Outcome State Fault Refusal :=
  needOperand s.opnd.key .key fun key =>
  needOperand s.opnd.iv .iv fun iv =>
  .next (s.complete (aesEncEnding Config.params key iv s.input))

/-- `AES_DEC`: `IBUF` decrypted under `KEY` and `IV`, padding removed softly (R124). -/
def execAesDec (s : State) : Host.Outcome State Fault Refusal :=
  needOperand s.opnd.key .key fun key =>
  needOperand s.opnd.iv .iv fun iv =>
  .next (s.complete (aesDecEnding key iv s.input))

end Sys2Proof.Machine
end

