-- ==== Sys2Proof/Machine/Wireless.lean ====
section
/-!
DEFINITION. The wireless frame marshaller and parser: `WL_BUILD`, `WL_PARSE` (spec 44_wireless_frame.md R160 to R164;
layout 30_encoding.md R61, R63).
-/

namespace Sys2Proof.Machine

/-- `WL_BODY(payload, crypto_type)`: the payload as sent, under the hardwired key and iv (R161). -/
def wirelessBody (P : Params) (payload : List Byte) (crypto : Byte) : List Byte :=
  if crypto = Config.ctAes ∧ 0 < payload.length then aesCbcEnc payload P.kDefault Config.ivDefault else payload

/-- The bytes a wireless frame's checksum covers, header to payload (R61, R162). -/
def wirelessPrefix (P : Params) (cmdid : U16) (body : List Byte) (crypto seq : Byte) : List Byte :=
  le16 P.wlHdr ++ [BitVec.ofNat 8 (Config.wlOverhead + body.length)] ++ [crypto] ++ [seq] ++ le16 cmdid ++ body

/-- `WIRELESS_FRAME(command_id, body, crypto_type, sequence)` (R162). -/
def wirelessFrame (P : Params) (cmdid : U16) (body : List Byte) (crypto seq : Byte) : List Byte :=
  let pre := wirelessPrefix P cmdid body crypto seq
  pre ++ [csumXor pre] ++ le16 P.wlFtr

/-- How `WL_BUILD` ends (R160). -/
def wirelessBuildEnding (P : Params) (cmdid : U16) (crypto seq : Byte) (payload : List Byte) : Ending :=
  let body := wirelessBody P payload crypto
  if 255 < Config.wlOverhead + body.length then .failure .fieldRange
  else .bytes (wirelessFrame P cmdid body crypto seq)

/-- `WL_PLAIN(raw, crypto_type)`: a payload that cannot be decrypted is returned raw, silently (R164). -/
def wirelessPlain (P : Params) (raw : List Byte) (crypto : Byte) : List Byte :=
  if crypto = Config.ctAes ∧ 0 < raw.length then
    match aesCbcDec raw P.kDefault Config.ivDefault with
    | .ok plain => plain
    | .error _ => raw
  else raw

/-- How `WL_PARSE` ends on the buffer `B` (R163): every failing check gives the one sentinel. -/
def wirelessParseEnding (P : Params) (B : List Byte) : Ending :=
  let L := B.length
  if L < Config.wlOverhead then .failure .wlNull
  else if rdLE16 B 0 ≠ P.wlHdr then .failure .wlNull
  else if (byteAt B 2).toNat ≠ L then .failure .wlNull
  else if rdLE16 B (L - 2) ≠ P.wlFtr then .failure .wlNull
  else if csumXor (slice B 0 (L - 3)) ≠ byteAt B (L - 3) then .failure .wlNull
  else
    .success (wirelessPlain P (slice B 7 (7 + (L - Config.wlOverhead))) (byteAt B 3))
      { ResultRegs.novalue with
        rCrypto := some (byteAt B 3)
        rSeq := some (byteAt B 4)
        rCmdid := some (rdLE16 B 5)
        rTotal := some (BitVec.ofNat 32 L) }
      false .none

/-- `WL_BUILD` (R160). -/
def execWlBuild (s : State) : Host.Outcome State Fault Refusal :=
  needOperand s.opnd.cmdid .cmdid fun cmdid =>
  needOperand s.opnd.crypto .crypto fun crypto =>
  needOperand s.opnd.seq .seq fun seq =>
  .next (s.complete (wirelessBuildEnding Config.params cmdid crypto seq s.input))

/-- `WL_PARSE` (R163). -/
def execWlParse (s : State) : Host.Outcome State Fault Refusal :=
  .next (s.complete (wirelessParseEnding Config.params s.input))

end Sys2Proof.Machine
end

