-- ==== Sys2Proof/Machine/Dispatch.lean ====
section
/-! DEFINITION. The meaning of every operation, one arm each (spec 30_encoding.md R70). -/

namespace Sys2Proof.Machine

def exec (i : Instr) (s : State) : Host.Outcome State Fault Refusal :=
  match i with
  | .csumAdd => Sys2Proof.Machine.execCsumAdd s
  | .csumXor => Sys2Proof.Machine.execCsumXor s
  | .aesEnc => Sys2Proof.Machine.execAesEnc s
  | .aesDec => Sys2Proof.Machine.execAesDec s
  | .wdBuild => Sys2Proof.Machine.execWdBuild s
  | .wdParse => Sys2Proof.Machine.execWdParse s
  | .wdResp => Sys2Proof.Machine.execWdResp s
  | .wlBuild => Sys2Proof.Machine.execWlBuild s
  | .wlParse => Sys2Proof.Machine.execWlParse s

end Sys2Proof.Machine
end

