-- ==== Sys2Proof/Decode.lean ====
section
/-!
DEFINITION. The command byte (spec 30_encoding.md R70, R72): a total decoder that rejects by name, the encoder,
and the reading of a word of spec/opcode_table.json.
-/

namespace Sys2Proof

/-- Why a command byte selects no operation (R72). -/
inductive DecodeError where
  /-- The byte is none of the nine codes of R70. -/
  | unassignedCode (code : Byte)
deriving DecidableEq, Repr

/-- A row of R70's table in the format `CMD8`: the bits of `mask` in the command byte must equal `code`. -/
structure OpcodeRow where
  code : Byte
  mask : Byte
  instr : Instr
deriving DecidableEq, Repr

/-- The command codes of R70, in its order. -/
def opcodeRows : List OpcodeRow :=
  [ ⟨0x01, 0xFF, .csumAdd⟩,
    ⟨0x02, 0xFF, .csumXor⟩,
    ⟨0x10, 0xFF, .aesEnc⟩,
    ⟨0x11, 0xFF, .aesDec⟩,
    ⟨0x20, 0xFF, .wdBuild⟩,
    ⟨0x21, 0xFF, .wdParse⟩,
    ⟨0x22, 0xFF, .wdResp⟩,
    ⟨0x30, 0xFF, .wlBuild⟩,
    ⟨0x31, 0xFF, .wlParse⟩ ]

/-- The operation a command byte selects, or the rejection of an unassigned one (R70, R72). -/
def decode (code : Byte) : Except DecodeError Instr :=
  match opcodeRows.find? (fun row => code &&& row.mask == row.code) with
  | some row => .ok row.instr
  | none => .error (.unassignedCode code)

/-- The command byte of an operation, from its rule's "Encoding" line (R90, R91, R121, R124, R140, R144, R143,
R160, R163). -/
def encode : Instr → Byte
  | .csumAdd => 0x01
  | .csumXor => 0x02
  | .aesEnc => 0x10
  | .aesDec => 0x11
  | .wdBuild => 0x20
  | .wdParse => 0x21
  | .wdResp => 0x22
  | .wlBuild => 0x30
  | .wlParse => 0x31

/-- The command byte held by the low `nbits` bits of `w`, bit 0 the least significant; bits above `nbits` are 0.
A command is one byte (R70), so bits above the eighth play no part. -/
def commandByte (nbits w : Nat) : Byte := BitVec.ofNat 8 (w % 2 ^ nbits)

/-- The operation the decoder reads from a word of spec/opcode_table.json; none where it refuses. -/
def decodeTableWord (nbits w : Nat) : Option Instr :=
  match decode (commandByte nbits w) with
  | .ok i => some i
  | .error _ => none

end Sys2Proof
end

