-- ==== Sys2Proof/Machine/HostActions.lean ====
section
/-!
DEFINITION. The host's actions (spec 45_host_interface.md R180 to R186, 70_reset_and_hazards.md R230): one
definition each, on the state as it is when the host's turn comes.
-/

namespace Sys2Proof.Machine

/-- Every action but `ReadStatus` and `Reset` is refused while `BUSY` (R185). -/
def whenNotBusy (s : State) (k : Host.Outcome State Fault Refusal) : Host.Outcome State Fault Refusal :=
  match s.phase with
  | .busy => .refused .accessWhileBusy
  | .idle => k
  | .done => k

/-- A value returned to the host; nothing else changes (R186; log entry 2). -/
def State.reply (s : State) (r : Reg) (v : Value) : State := { s with replies := s.replies ++ [⟨r, v⟩] }

/-- `WriteReg(r, v)` (R181). -/
def hostWriteReg (w : OperandValue) (s : State) : Host.Outcome State Fault Refusal :=
  whenNotBusy s (.next { s with opnd := s.opnd.set w })

/-- `LoadIBUF(bytes)`, an action only when the bytes fit the buffer (R181). -/
def hostLoadIbuf (bytes : List Byte) (s : State) : Host.Outcome State Fault Refusal :=
  whenNotBusy s
    (if Config.params.fits bytes.length then .next { s with ibuf := Memory.load bytes }
      else .refused .loadTooLong)

/-- `Start(code)` (R182), refused when the operation `code` selects reads an operand register that holds `NOVALUE`;
a code that selects no operation is never refused on this ground (R183). -/
def hostStart (code : Byte) (s : State) : Host.Outcome State Fault Refusal :=
  whenNotBusy s
    (match decode code with
      | .ok i =>
        match s.opnd.missing i with
        | some r => .refused (.operandNoValue r)
        | none => .next (s.started code)
      | .error _ => .next (s.started code))

/-- `ReadStatus()`, always enabled (R185, R186). -/
def hostReadStatus (s : State) : Host.Outcome State Fault Refusal :=
  .next (s.reply .status (.half s.status))

/-- `ReadReg(r)` (R186). -/
def hostReadReg (r : ReadableReg) (s : State) : Host.Outcome State Fault Refusal :=
  whenNotBusy s
    (match s.readable r with
      | some v => .next (s.reply r.reg v)
      | none => .refused (.readNoValue r.reg))

/-- `ReadResult(r)`, enabled in phase `DONE` where `r` holds a value (R180, R186). -/
def hostReadResult (r : ResultLoc) (s : State) : Host.Outcome State Fault Refusal :=
  match s.phase with
  | .busy => .refused .accessWhileBusy
  | .idle => .refused .resultWhileIdle
  | .done =>
    match s.resultAt r with
    | some v => .next (s.reply r.reg v)
    | none => .refused (.readNoValue r.reg)

/-- `Reset()`, in any phase (R230). -/
def hostReset (s : State) : Host.Outcome State Fault Refusal := .next s.resetEngine

/-- One action of the host. -/
def hostAct (a : HostAction) (s : State) : Host.Outcome State Fault Refusal :=
  match a with
  | .writeReg w => hostWriteReg w s
  | .loadIbuf bytes => hostLoadIbuf bytes s
  | .start code => hostStart code s
  | .readStatus => hostReadStatus s
  | .readReg r => hostReadReg r s
  | .readResult r => hostReadResult r s
  | .reset => hostReset s

end Sys2Proof.Machine
end

