-- ==== Sys2Proof/Machine/Engine.lean ====
section
/-!
DEFINITION. The engine's step (spec 45_host_interface.md R184), the choice of the agent that moves (R180), and the
placing of a command where the engine's next step takes it.
-/

namespace Sys2Proof.Machine

/-- The engine's step on the command byte `code`: the operation it selects, or `BadOp` (R184, R72, R209). -/
def runCommand (code : Byte) (s : State) : Host.Outcome State Fault Refusal :=
  match decode code with
  | .ok i => exec i s
  | .error _ => .next (s.complete (.failure .badOp))

/-- The engine's turn: enabled exactly in phase `BUSY` (R184). -/
def engineStep (s : State) : Host.Outcome State Fault Refusal :=
  match s.phase with
  | .idle => .fault .engineNotEnabled
  | .done => .fault .engineNotEnabled
  | .busy =>
    match s.op with
    | some code => runCommand code s
    | none => .refused .commandNoValue

/-- The next turn of the run: the first of the script, or, when the script is empty, the engine's while an operation
is owed its step (R180, R184: a started operation always completes), else none (R189; log entries 1 and 12). -/
def nextTurn (s : State) : Host.Outcome State Fault Refusal :=
  match s.script with
  | .host a :: rest => hostAct a { s with script := rest }
  | .engine :: rest => engineStep { s with script := rest }
  | [] =>
    match s.phase with
    | .busy => engineStep s
    | .idle => .fault .runEnded
    | .done => .fault .runEnded

/-- The register named, if it holds `NOVALUE`, gets the value zero of its width; every other register stays. -/
def OperandRegs.fillOne (o : OperandRegs) : OperandReg → OperandRegs
  | .sync => { o with sync := o.sync.getD 0 }
  | .feature => { o with feature := o.feature.getD 0 }
  | .cmdid => { o with cmdid := o.cmdid.getD 0 }
  | .crypto => { o with crypto := o.crypto.getD 0 }
  | .seq => { o with seq := o.seq.getD 0 }
  | .result => { o with result := o.result.getD 0 }
  | .key => { o with key := o.key.getD Block.zero }
  | .iv => { o with iv := o.iv.getD Block.zero }

/-- The operand registers that the command reads, each written (with zero) if nothing has written it: the host
writes without which the start would be refused (R183, R231; log entry 3). -/
def OperandRegs.fillFor (o : OperandRegs) (code : Byte) : OperandRegs :=
  match decode code with
  | .ok i => i.reads.foldl OperandRegs.fillOne o
  | .error _ => o

/-- The state in which the host has just started `code` (R182) and the next turn is the engine's (log entry 3). -/
def State.placeCommand (s : State) (code : Byte) : State :=
  { s.started code with
    opnd := s.opnd.fillFor code
    script := .engine :: s.script }

end Sys2Proof.Machine
end

