-- ==== Sys2Proof/Machine/Step.lean ====
section
/-! DEFINITION. One step of the run of the engine and its host (spec 45_host_interface.md R180, R189). -/

namespace Sys2Proof.Machine

/-- One step: one action of the host or the engine's one indivisible step (R180, R184). -/
def step (s : State) : Host.Outcome State Fault Refusal := nextTurn s

/-- The state in which the operation of the table word `w` has just been started, so that the next step runs it
(log entry 3). -/
def State.withFetchWord (s : State) (nbits w : Nat) : State := s.placeCommand (commandByte nbits w)

end Sys2Proof.Machine
end

