-- ==== Sys2Proof/WellFormed.lean ====
section
/-!
DEFINITION. Which terms of the syntax stand for something the spec has. An operation carries no operand
(spec 30_encoding.md R70), so every `Instr` is well formed; the one bound on a host action is that `LoadIBUF`
of more than `BUFCAP` bytes "does not exist as an action" (45_host_interface.md R181).
-/

namespace Sys2Proof

/-- Every operation is well formed: the command byte has no fields beside the opcode (R70). -/
def Instr.wf : Instr → Bool
  | .csumAdd => true
  | .csumXor => true
  | .aesEnc => true
  | .aesDec => true
  | .wdBuild => true
  | .wdParse => true
  | .wdResp => true
  | .wlBuild => true
  | .wlParse => true

/-- A host action that exists under the parameters `P` (R180, R181): a load fits the buffer. -/
def HostAction.wf (P : Params) : HostAction → Bool
  | .loadIbuf bytes => P.fits bytes.length
  | .writeReg _ => true
  | .start _ => true
  | .readStatus => true
  | .readReg _ => true
  | .readResult _ => true
  | .reset => true

/-- A turn that exists under the parameters `P`. -/
def Turn.wf (P : Params) : Turn → Bool
  | .engine => true
  | .host a => a.wf P

end Sys2Proof
end

