-- ==== Sys2Proof/Safety.lean ====
section
/-!
DEFINITION. The terms in which claims about the engine are made: the frame layouts and acceptance predicates of spec
30_encoding.md R60, R61 and R77, which registers and errors an operation may leave (R71), what an operation never
touches, when a run has ended well (45_host_interface.md R189), and the invariant of the reachable states.
-/

namespace Sys2Proof

/-- The sum of the bytes as a natural number (R90, R94). -/
def byteSum (B : List Byte) : Nat := (B.map (·.toNat)).sum

/-- A byte sequence laid out as R60's table says, offset by offset. -/
structure WiredLayout (P : Params) (sync : Byte) (feature cmdid : U16) (payload F : List Byte) : Prop where
  total : F.length = 11 + payload.length
  headAt : F[0]? = some P.head
  syncAt : F[1]? = some sync
  featureHigh : F[2]? = some (BitVec.ofNat 8 (feature.toNat / 256))
  featureLow : F[3]? = some (BitVec.ofNat 8 (feature.toNat % 256))
  cmdidHigh : F[4]? = some (BitVec.ofNat 8 (cmdid.toNat / 256))
  cmdidLow : F[5]? = some (BitVec.ofNat 8 (cmdid.toNat % 256))
  lengthHigh : F[6]? = some (BitVec.ofNat 8 (payload.length / 256))
  lengthLow : F[7]? = some (BitVec.ofNat 8 (payload.length % 256))
  payloadAt : ∀ j < payload.length, F[8 + j]? = payload[j]?
  checksumAt : F[8 + payload.length]? = some (Machine.csumAdd (F.take (8 + payload.length)))
  term0 : F[9 + payload.length]? = some P.term0
  term1 : F[10 + payload.length]? = some P.term1

/-- A byte sequence laid out as R61's table says, offset by offset; `body` is the payload as sent. -/
structure WirelessLayout (P : Params) (cmdid : U16) (crypto seq : Byte) (body F : List Byte) : Prop where
  total : F.length = 10 + body.length
  headerLow : F[0]? = some (BitVec.ofNat 8 (P.wlHdr.toNat % 256))
  headerHigh : F[1]? = some (BitVec.ofNat 8 (P.wlHdr.toNat / 256))
  totalLength : F[2]? = some (BitVec.ofNat 8 (10 + body.length))
  cryptoAt : F[3]? = some crypto
  seqAt : F[4]? = some seq
  cmdidLow : F[5]? = some (BitVec.ofNat 8 (cmdid.toNat % 256))
  cmdidHigh : F[6]? = some (BitVec.ofNat 8 (cmdid.toNat / 256))
  payloadAt : ∀ j < body.length, F[7 + j]? = body[j]?
  checksumAt : F[7 + body.length]? = some (Machine.csumXor (F.take (7 + body.length)))
  footerLow : F[8 + body.length]? = some (BitVec.ofNat 8 (P.wlFtr.toNat % 256))
  footerHigh : F[9 + body.length]? = some (BitVec.ofNat 8 (P.wlFtr.toNat / 256))

/-- `WiredWellFormed(B)` (R77). -/
structure WiredWellFormed (P : Params) (B : List Byte) : Prop where
  floor : 11 ≤ B.length
  head : B[0]? = some P.head
  length : 11 + (256 * (byteAt B 6).toNat + (byteAt B 7).toNat) = B.length
  term : B.drop (B.length - 2) = [P.term0, P.term1]

/-- `WiredIntact(B)` (R77). -/
structure WiredIntact (P : Params) (B : List Byte) : Prop where
  wellFormed : WiredWellFormed P B
  checksum : B[B.length - 3]? = some (Machine.csumAdd (B.take (B.length - 3)))

/-- `WirelessAccepted(B)` (R77). -/
structure WirelessAccepted (P : Params) (B : List Byte) : Prop where
  floor : 10 ≤ B.length
  header : (byteAt B 0).toNat + 256 * (byteAt B 1).toNat = P.wlHdr.toNat
  totalLength : (byteAt B 2).toNat = B.length
  footer : (byteAt B (B.length - 2)).toNat + 256 * (byteAt B (B.length - 1)).toNat = P.wlFtr.toNat
  checksum : B[B.length - 3]? = some (Machine.csumXor (B.take (B.length - 3)))

/-- The "can fail with" column of R71. -/
def Instr.canFailWith : Instr → List Machine.ErrCode
  | .csumAdd => []
  | .csumXor => []
  | .aesEnc => [.bufOverflow]
  | .aesDec => [.badCipherLen]
  | .wdBuild => [.fieldRange, .bufOverflow]
  | .wdParse => [.tooShort, .badHead, .lengthMismatch, .badTerminator]
  | .wdResp => [.fieldRange, .bufOverflow]
  | .wlBuild => [.fieldRange]
  | .wlParse => [.wlNull]

/-- The result registers an operation writes with a value when it succeeds (R71's "writes" column, R15). -/
def Instr.writes : Instr → List ResultLoc
  | .csumAdd => []
  | .csumXor => []
  | .aesEnc => []
  | .aesDec => []
  | .wdBuild => []
  | .wdParse => [.rSync, .rFeature, .rCmdid, .rTotal]
  | .wdResp => []
  | .wlBuild => []
  | .wlParse => [.rCrypto, .rSeq, .rCmdid, .rTotal]

/-- The register a `WriteReg` names. -/
def OperandValue.reg : OperandValue → OperandReg
  | .sync _ => .sync
  | .feature _ => .feature
  | .cmdid _ => .cmdid
  | .crypto _ => .crypto
  | .seq _ => .seq
  | .result _ => .result
  | .key _ => .key
  | .iv _ => .iv

/-- The value a `WriteReg` carries. -/
def OperandValue.value : OperandValue → Value
  | .sync v => .byte v
  | .feature v => .half v
  | .cmdid v => .half v
  | .crypto v => .byte v
  | .seq v => .byte v
  | .result v => .byte v
  | .key v => .block v
  | .iv v => .block v

end Sys2Proof

namespace Sys2Proof.Machine

/-- The six result registers of R15 (`OLEN` and `OBUF` apart). -/
def resultRegisters : List ResultLoc := [.rSync, .rFeature, .rCmdid, .rCrypto, .rSeq, .rTotal]

/-- What no operation touches (R13, R11, R184): operand registers, `IBUF` at every index, `OP`, and the host's own
script and replies. -/
structure EngineFrame (s t : State) : Prop where
  opnd : t.opnd = s.opnd
  ibuf : t.ibuf = s.ibuf
  ibufByte : ∀ a, t.ibuf.read a = s.ibuf.read a
  op : t.op = s.op
  script : t.script = s.script
  replies : t.replies = s.replies

/-- No result of any operation is held: `OBUF`, `OLEN`, every result register `NOVALUE`, `CSUM_OK` and `DIR` 0. -/
structure NoResults (s : State) : Prop where
  obuf : s.obuf = none
  res : s.res = ResultRegs.novalue
  csumOk : s.flags.csumOk = false
  dir : s.flags.dir = .none

/-- A completion with `ERR = OK` and exactly the results of the operation `i` (R71, R15, R21). -/
structure OwnResults (i : Instr) (s : State) : Prop where
  phase : s.phase = .done
  err : s.flags.err = .ok
  obuf : s.obuf.isSome
  res : ∀ r ∈ resultRegisters, (s.resultAt r).isSome ↔ r ∈ i.writes
  csumOk : s.flags.csumOk = true → i = .wdParse
  dir : s.flags.dir ≠ .none ↔ i = .wdParse

/-- A completion with the error code `e` and no result (R201, R212). -/
structure FailedWith (e : ErrCode) (s : State) : Prop where
  phase : s.phase = .done
  err : s.flags.err = e
  none : NoResults s

/-- Success with the bytes `out` in `OBUF` and nothing else: no result register, `CSUM_OK` and `DIR` 0. -/
structure SucceededWith (out : List Byte) (s : State) : Prop where
  phase : s.phase = .done
  flags : s.flags = ⟨false, .none, .ok⟩
  res : s.res = ResultRegs.novalue
  output : s.output = some out
  olen : s.olen = some (BitVec.ofNat 32 out.length)

/-- Both buffers are in canonical form and within `BUFCAP` (R13, R14). -/
structure BuffersWf (s : State) : Prop where
  ibuf : s.ibuf.wf
  ibufCap : s.ibuf.length ≤ Config.params.bufCap
  obuf : ∀ m, s.obuf = some m → m.wf ∧ m.length ≤ Config.params.bufCap

/-- What each phase says of the rest of the state (R30, R16, R182, R183, R184, R201). -/
def PhaseWf (s : State) : Prop :=
  match s.phase with
  | .idle => s.op = none ∧ NoResults s ∧ s.flags.err = .ok
  | .busy => NoResults s ∧ s.flags.err = .ok ∧ ∃ code, s.op = some code ∧ ∀ i, decode code = .ok i → s.opnd.ready i
  | .done =>
    ∃ code, s.op = some code ∧
      ((∃ i, decode code = .ok i ∧ (OwnResults i s ∨ ∃ e ∈ i.canFailWith, FailedWith e s)) ∨
        ((∀ i, decode code ≠ .ok i) ∧ FailedWith .badOp s))

/-- The invariant of the runs from reset. -/
structure State.Inv (s : State) : Prop where
  buffers : BuffersWf s
  phase : PhaseWf s

/-- The state `s` with the turn `T` put before the rest of its script: every state whose script is not empty is of
this form, for the state without that turn. -/
def State.withTurn (s : State) (T : Turn) : State := { s with script := T :: s.script }

/-- The state `s` with the byte sequence `B` in `IBUF`. -/
def State.withInput (s : State) (B : List Byte) : State := { s with ibuf := Memory.load B }

/-- A run that has ended well: no operation is owed its step and the host has no further action (R189). -/
def State.endedWell (s : State) : Prop := s.phase ≠ .busy ∧ s.script = []

end Sys2Proof.Machine
end

