-- ==== Sys2Proof/Certificates/Slice0/Obligations.lean ====
section
/-!
DEFINITION. The statements for the provers. Each says which rule of spec/ it formalises; one that rests on the model's
own choice says so.
-/

open Sys2Proof Sys2Proof.Machine

/-! ## Command byte, step, start -/

/-- R70: the whole byte is the opcode; the decoder and the encoder give each operation the one code of the table. -/
def Obligations.CommandByteIsTheWholeOpcode : Prop :=
  (∀ (c : Byte) (i : Instr), decode c = .ok i ↔ encode i = c) ∧
  decode 0x01 = .ok .csumAdd ∧ decode 0x02 = .ok .csumXor ∧ decode 0x10 = .ok .aesEnc ∧ decode 0x11 = .ok .aesDec ∧
  decode 0x20 = .ok .wdBuild ∧ decode 0x21 = .ok .wdParse ∧ decode 0x22 = .ok .wdResp ∧ decode 0x30 = .ok .wlBuild ∧
  decode 0x31 = .ok .wlParse

/-- R72, R209: a code outside the table starts without reading an operand and completes with `BadOp` and no result. -/
def Obligations.UnassignedCodeEndsInBadOp : Prop :=
  ∀ (s : State) (c : Byte), c ∉ ([0x01, 0x02, 0x10, 0x11, 0x20, 0x21, 0x22, 0x30, 0x31] : List Byte) →
    (s.phase ≠ .busy → ∃ t, step (s.withTurn (.host (.start c))) = .next t ∧ t.phase = .busy ∧ t.op = some c) ∧
    (s.phase = .busy → s.op = some c →
      ∃ t, step (s.withTurn .engine) = .next t ∧ FailedWith .badOp t ∧ EngineFrame s t)

/-- R184, R180: the engine's step in phase `BUSY` is the meaning of the operation that `OP` decodes to, on the state
without the turn. That with an empty script the turn is the engine's is the model's choice (log entry 1). -/
def Obligations.StepRunsTheStartedOperation : Prop :=
  ∀ (s : State) (c : Byte) (i : Instr), s.phase = .busy → s.op = some c → decode c = .ok i → i.wf →
    step (s.withTurn .engine) = exec i s ∧ (s.script = [] → step s = exec i s)

/-- R184 "Enabled exactly when the phase is `BUSY`", R189. That a step not enabled is the model's fault
`engineNotEnabled`, and the end of a run `runEnded`, is the model's choice (log entry 12). -/
def Obligations.NoEngineStepOutsideBusy : Prop :=
  ∀ s : State, s.phase ≠ .busy →
    step (s.withTurn .engine) = .fault .engineNotEnabled ∧ (s.endedWell → step s = .fault .runEnded)

/-! ## Checksum generator -/

/-- R90: one byte, the two's complement of the sum of the bytes modulo 256. -/
def Obligations.CsumAddWritesTheNegatedSum : Prop :=
  ∀ s : State, ∃ (t : State) (c : Byte), exec .csumAdd s = .next t ∧
    c.toNat = (256 - byteSum s.input % 256) % 256 ∧ SucceededWith [c] t ∧ EngineFrame s t

/-- R91: one byte, whose bit `j` is the parity of the number of input bytes with bit `j` set. -/
def Obligations.CsumXorWritesTheBitParities : Prop :=
  ∀ s : State, ∃ (t : State) (c : Byte), exec .csumXor s = .next t ∧
    (∀ j < 8, c.getLsbD j = decide ((s.input.filter (fun b => b.getLsbD j)).length % 2 = 1)) ∧
    SucceededWith [c] t ∧ EngineFrame s t

/-- R92: both operations on the empty input give `0x00`, and no error. -/
def Obligations.ChecksumsOfTheEmptyInputAreZero : Prop :=
  ∀ s : State, s.input = [] →
    (∃ t, exec .csumAdd s = .next t ∧ SucceededWith [0x00] t) ∧ (∃ t, exec .csumXor s = .next t ∧ SucceededWith [0x00] t)

/-- R94, a law the spec derives from R90: a byte is the additive checksum exactly when it makes the sum 0 modulo 256;
a well-formed wired frame is intact exactly when head through checksum sum to 0; one changed byte changes the
checksum; `+1` and `-1` on two bytes cancel. -/
def Obligations.AdditiveCheckLaw : Prop :=
  (∀ (B : List Byte) (c : Byte), c = csumAdd B ↔ byteSum (B ++ [c]) % 256 = 0) ∧
  (∀ (P : Params) (F : List Byte), WiredWellFormed P F →
    (WiredIntact P F ↔ byteSum (F.take (F.length - 2)) % 256 = 0)) ∧
  (∀ (B : List Byte) (i : Nat) (b : Byte), i < B.length → b ≠ byteAt B i → csumAdd (B.set i b) ≠ csumAdd B) ∧
  (∀ (B : List Byte) (i j : Nat), i < B.length → j < B.length → i ≠ j →
    csumAdd ((B.set i (byteAt B i + 1)).set j (byteAt B j - 1)) = csumAdd B)

/-- R95, a law the spec derives from R91: the same law for the XOR checksum; two bytes changed by one difference
cancel. -/
def Obligations.XorCheckLaw : Prop :=
  (∀ (B : List Byte) (c : Byte), c = csumXor B ↔ csumXor (B ++ [c]) = 0) ∧
  (∀ (B : List Byte) (i : Nat) (b : Byte), i < B.length → b ≠ byteAt B i → csumXor (B.set i b) ≠ csumXor B) ∧
  (∀ (B : List Byte) (i j : Nat) (d : Byte), i < B.length → j < B.length → i ≠ j →
    csumXor ((B.set i (byteAt B i ^^^ d)).set j (byteAt B j ^^^ d)) = csumXor B)

/-- R96, a law the spec derives from R90 and R91: both checksums of a concatenation come from the checksums of its
parts; and neither depends on the order of the bytes (R90, R91). -/
def Obligations.ChecksumsAreIncremental : Prop :=
  (∀ X Y : List Byte, csumXor (X ++ Y) = csumXor X ^^^ csumXor Y) ∧
  (∀ X Y : List Byte, (csumAdd (X ++ Y)).toNat = ((csumAdd X).toNat + (csumAdd Y).toNat) % 256) ∧
  (∀ X Y : List Byte, X.Perm Y → csumAdd X = csumAdd Y ∧ csumXor X = csumXor Y)

/-! ## The AES-128 block cipher -/

/-- R116 (the cipher is the spec's from general knowledge, log entry 11): the two block functions are inverse to each
other under every key. -/
def Obligations.AesBlockFunctionsAreInverse : Prop :=
  ∀ k b : Block, aesDecBlock k (aesEncBlock k b) = b ∧ aesEncBlock k (aesDecBlock k b) = b

/-- R103, R104 (log entry 11): the S-box table is the affine image of the inverse in GF(2^8), and the other table
inverts it. -/
def Obligations.SboxIsTheAffineImageOfTheInverse : Prop :=
  (∀ a : Byte, ∃ x : Byte, (a = 0 → x = 0) ∧ (a ≠ 0 → gmul a x = 1) ∧
    ∀ i < 8, (sbox a).getLsbD i =
      (x.getLsbD i ^^ x.getLsbD ((i + 4) % 8) ^^ x.getLsbD ((i + 5) % 8) ^^ x.getLsbD ((i + 6) % 8) ^^
        x.getLsbD ((i + 7) % 8) ^^ (0x63 : Byte).getLsbD i)) ∧
  (∀ a : Byte, isbox (sbox a) = a ∧ sbox (isbox a) = a)

/-- R106 (log entry 11): 44 words, the first four the key, each later one by the recurrence; the round key 0 is the
key itself. -/
def Obligations.KeyExpansionFollowsTheRecurrence : Prop :=
  ∀ k : Block, (keyExpansion k).length = 44 ∧ roundKey (keyExpansion k) 0 = k ∧
    ∀ i, 4 ≤ i → i < 44 →
      (keyExpansion k).getD i default =
        Word4.xor ((keyExpansion k).getD (i - 4) default)
          (if i % 4 = 0 then
            Word4.xor (subWord (rotWord ((keyExpansion k).getD (i - 1) default))) ⟨rcon (i / 4), 0, 0, 0⟩
          else (keyExpansion k).getD (i - 1) default)

/-! ## CBC with PKCS#7 -/

/-- R121, with R120 and R122 (log entry 11): with both operands written and room for the result, `AES_ENC` writes the
chained encryption of the padded input, block by block. -/
def Obligations.AesEncChainsThePaddedInput : Prop :=
  ∀ (s : State) (key iv : Block), s.opnd.key = some key → s.opnd.iv = some iv →
    16 * (s.input.length / 16 + 1) ≤ Config.params.bufCap →
    ∃ (t : State) (C : List Byte), exec .aesEnc s = .next t ∧ SucceededWith C t ∧ EngineFrame s t ∧
      C.length = 16 * (s.input.length / 16 + 1) ∧
      ∀ i < s.input.length / 16 + 1,
        Block.ofBytes (C.drop (16 * i)) =
          aesEncBlock key
            (Block.xor
              (Block.ofBytes
                ((s.input ++ List.replicate (16 - s.input.length % 16) (BitVec.ofNat 8 (16 - s.input.length % 16))).drop
                  (16 * i)))
              (if i = 0 then iv else Block.ofBytes (C.drop (16 * (i - 1)))))

/-- R208, R121: a ciphertext longer than `BUFCAP` is not produced: `BufOverflow`; one that fits never reports it. -/
def Obligations.AesEncOverflowsOnlyPastTheBuffer : Prop :=
  ∀ (s : State) (key iv : Block), s.opnd.key = some key → s.opnd.iv = some iv →
    (Config.params.bufCap < 16 * (s.input.length / 16 + 1) →
      ∃ t, exec .aesEnc s = .next t ∧ FailedWith .bufOverflow t ∧ EngineFrame s t) ∧
    (16 * (s.input.length / 16 + 1) ≤ Config.params.bufCap →
      ∃ t, exec .aesEnc s = .next t ∧ t.flags.err ≠ .bufOverflow)

/-- R124, with R125 (log entry 11): with both operands written and a length that is a multiple of 16, `AES_DEC` writes
the unchained input with its padding removed softly. -/
def Obligations.AesDecUnchainsAndUnpads : Prop :=
  ∀ (s : State) (key iv : Block), s.opnd.key = some key → s.opnd.iv = some iv → s.input.length % 16 = 0 →
    ∃ (t : State) (D : List Byte), exec .aesDec s = .next t ∧ SucceededWith (unpadSoft D) t ∧ EngineFrame s t ∧
      D.length = s.input.length ∧
      ∀ i < s.input.length / 16,
        Block.ofBytes (D.drop (16 * i)) =
          Block.xor (aesDecBlock key (Block.ofBytes (s.input.drop (16 * i))))
            (if i = 0 then iv else Block.ofBytes (s.input.drop (16 * (i - 1))))

/-- R216: any other length is `BadCipherLen`; no other operation raises it, and inside `WL_PARSE` the same condition
leaves the payload raw. -/
def Obligations.AesDecRefusesPartialBlocks : Prop :=
  (∀ (s : State) (key iv : Block), s.opnd.key = some key → s.opnd.iv = some iv → s.input.length % 16 ≠ 0 →
    ∃ t, exec .aesDec s = .next t ∧ FailedWith .badCipherLen t ∧ EngineFrame s t) ∧
  (∀ (i : Instr) (s t : State), exec i s = .next t → t.flags.err = .badCipherLen → i = .aesDec) ∧
  (∀ (P : Params) (raw : List Byte), raw.length % 16 ≠ 0 → wirelessPlain P raw 0x02 = raw)

/-- R123, R127: a message that ends in `p` bytes of value `p`, `p` from 1 to 255, loses them (the bound is the length
of the message, not 16); any other message, the empty one among them, is returned whole. -/
def Obligations.SoftUnpadStripsExactlyAWholePad : Prop :=
  (∀ (E : List Byte) (p : Nat), 1 ≤ p → p ≤ 255 → unpadSoft (E ++ List.replicate p (BitVec.ofNat 8 p)) = E) ∧
  (∀ D : List Byte,
    (∀ (E : List Byte) (p : Nat), 1 ≤ p → p ≤ 255 → D ≠ E ++ List.replicate p (BitVec.ofNat 8 p)) → unpadSoft D = D)

/-- R126, a law the spec derives: decrypting an encryption gives the plaintext back, as functions and through the two
operations. -/
def Obligations.CbcRoundTrip : Prop :=
  (∀ (B : List Byte) (key iv : Block), aesCbcDec (aesCbcEnc B key iv) key iv = .ok B) ∧
  (∀ (s : State) (key iv : Block), s.opnd.key = some key → s.opnd.iv = some iv →
    16 * (s.input.length / 16 + 1) ≤ Config.params.bufCap →
    ∃ (t u : State) (C : List Byte), exec .aesEnc s = .next t ∧ t.output = some C ∧
      exec .aesDec (t.withInput C) = .next u ∧ SucceededWith s.input u)

/-- R128, which the spec derives: the ciphertext's length; and the largest plaintext a wireless frame can carry
encrypted is 239 bytes. -/
def Obligations.CiphertextLengths : Prop :=
  (∀ (B : List Byte) (key iv : Block), (aesCbcEnc B key iv).length = 16 * (B.length / 16 + 1)) ∧
  (∀ (P : Params) (B : List Byte), B ≠ [] →
    ((wirelessBody P B 0x02).length ≤ 245 ↔ B.length ≤ 239) ∧
    ((wirelessBody P B 0x02).length ≤ 245 → (wirelessBody P B 0x02).length ≤ 240))

/-- R129, which the spec derives: changing byte `j` of ciphertext block `i` changes decrypted block `i`, the byte `j`
of block `i + 1` by the same difference, and nothing else; changing the iv changes only the same bytes of the first
block. -/
def Obligations.CbcErrorPropagation : Prop :=
  (∀ (C : List Byte) (key iv : Block) (i j : Nat) (b : Byte), C.length % 16 = 0 → 16 * i + 16 ≤ C.length → j < 16 →
    b ≠ byteAt C (16 * i + j) →
    Block.ofBytes ((aesCbcUnchain (C.set (16 * i + j) b) key iv).drop (16 * i)) ≠
      Block.ofBytes ((aesCbcUnchain C key iv).drop (16 * i)) ∧
    ∀ p < C.length, p / 16 ≠ i →
      byteAt (aesCbcUnchain (C.set (16 * i + j) b) key iv) p =
        byteAt (aesCbcUnchain C key iv) p ^^^ (if p = 16 * (i + 1) + j then byteAt C (16 * i + j) ^^^ b else 0)) ∧
  (∀ (C : List Byte) (key iv iv' : Block), C.length % 16 = 0 →
    ∀ p < C.length,
      byteAt (aesCbcUnchain C key iv') p =
        byteAt (aesCbcUnchain C key iv) p ^^^ (if p < 16 then byteAt iv.bytes p ^^^ byteAt iv'.bytes p else 0))

/-! ## Wired frames -/

/-- R140, R141, R60: with its operands written, a payload of at most 65535 bytes and room for the frame, `WD_BUILD`
writes the frame of R60's table. -/
def Obligations.WdBuildWritesTheFrame : Prop :=
  ∀ (s : State) (sync : Byte) (feature cmdid : U16), s.opnd.sync = some sync → s.opnd.feature = some feature →
    s.opnd.cmdid = some cmdid → s.input.length ≤ 65535 → 11 + s.input.length ≤ Config.params.bufCap →
    ∃ (t : State) (F : List Byte), exec .wdBuild s = .next t ∧ SucceededWith F t ∧ EngineFrame s t ∧
      WiredLayout Config.params sync feature cmdid s.input F

/-- R207, R208, R211: the two wired builds fail on a length that does not fit its field, then on a frame that does not
fit the buffer. The checks are stated for every record of parameters; with its operands written, each build takes them
at the engine's own (`BUFCAP` is open, so whether it is ever short of a frame is open too). -/
def Obligations.WiredBuildsFailOnRangeThenRoom : Prop :=
  (∀ (s : State) (sync : Byte) (feature cmdid : U16), s.opnd.sync = some sync → s.opnd.feature = some feature →
    s.opnd.cmdid = some cmdid →
    exec .wdBuild s = .next (s.complete (wiredBuildEnding Config.params sync feature cmdid s.input))) ∧
  (∀ (s : State) (cmdid : U16) (seq result : Byte), s.opnd.cmdid = some cmdid → s.opnd.seq = some seq →
    s.opnd.result = some result →
    exec .wdResp s = .next (s.complete (wiredBuildEnding Config.params Config.params.syncP2H
      Config.params.featureReply cmdid (seq :: result :: s.input)))) ∧
  (∀ (P : Params) (sync : Byte) (feature cmdid : U16) (B : List Byte) (s : State),
    (65535 < B.length →
      FailedWith .fieldRange (s.complete (wiredBuildEnding P sync feature cmdid B)) ∧
      EngineFrame s (s.complete (wiredBuildEnding P sync feature cmdid B))) ∧
    (B.length ≤ 65535 → P.bufCap < 11 + B.length →
      FailedWith .bufOverflow (s.complete (wiredBuildEnding P sync feature cmdid B)) ∧
      EngineFrame s (s.complete (wiredBuildEnding P sync feature cmdid B))) ∧
    (B.length ≤ 65535 → 11 + B.length ≤ P.bufCap →
      (s.complete (wiredBuildEnding P sync feature cmdid B)).flags.err = .ok))

/-- R143: `WD_RESP` writes the frame of `[SEQ, RESULT] ++ IBUF` with `SYNC_P2H` and `FEATURE_REPLY`. -/
def Obligations.WdRespWritesTheReplyFrame : Prop :=
  ∀ (s : State) (cmdid : U16) (seq result : Byte), s.opnd.cmdid = some cmdid → s.opnd.seq = some seq →
    s.opnd.result = some result → s.input.length + 2 ≤ 65535 → 13 + s.input.length ≤ Config.params.bufCap →
    ∃ (t : State) (F : List Byte), exec .wdResp s = .next t ∧ SucceededWith F t ∧ EngineFrame s t ∧
      WiredLayout Config.params Config.params.syncP2H Config.params.featureReply cmdid (seq :: result :: s.input) F

/-- R76: `WD_RESP` ends as `WD_BUILD` does with `SYNC = SYNC_P2H`, `FEATURE = FEATURE_REPLY` and the two bytes put
before the payload, and it leaves its own `SYNC` and `FEATURE` alone. -/
def Obligations.WdRespIsTheExpandedBuild : Prop :=
  ∀ (s : State) (cmdid : U16) (seq result : Byte), s.opnd.cmdid = some cmdid → s.opnd.seq = some seq →
    s.opnd.result = some result →
    ∃ t u : State, exec .wdResp s = .next t ∧
      exec .wdBuild
        { s.withInput ([seq, result] ++ s.input) with
          opnd := (s.opnd.set (.sync Config.params.syncP2H)).set (.feature Config.params.featureReply) } = .next u ∧
      t.obuf = u.obuf ∧ t.res = u.res ∧ t.flags = u.flags ∧ t.opnd.sync = s.opnd.sync ∧ t.opnd.feature = s.opnd.feature

/-- R144: on a well-formed buffer `WD_PARSE` returns every field, the payload, the checksum flag, the direction and
the total length. -/
def Obligations.WdParseReturnsTheFields : Prop :=
  ∀ s : State, WiredWellFormed Config.params s.input →
    ∃ (t : State) (feature cmdid : U16) (total : U32), exec .wdParse s = .next t ∧ EngineFrame s t ∧
      t.phase = .done ∧ t.flags.err = .ok ∧
      t.res = { ResultRegs.novalue with
        rSync := some (byteAt s.input 1), rFeature := some feature, rCmdid := some cmdid, rTotal := some total } ∧
      feature.toNat = 256 * (byteAt s.input 2).toNat + (byteAt s.input 3).toNat ∧
      cmdid.toNat = 256 * (byteAt s.input 4).toNat + (byteAt s.input 5).toNat ∧
      total.toNat = s.input.length ∧
      t.output = some ((s.input.drop 8).take (s.input.length - 11)) ∧
      (t.flags.csumOk = true ↔ s.input[s.input.length - 3]? = some (csumAdd (s.input.take (s.input.length - 3)))) ∧
      t.flags.dir = directionOf Config.params (byteAt s.input 1)

/-- R202 to R205, R211: which error `WD_PARSE` reports, the first failing check in the source's order. -/
def Obligations.WdParseReportsTheFirstFailingCheck : Prop :=
  ∀ s : State, ∃ t, exec .wdParse s = .next t ∧
    (s.input.length < Config.params.wdMin → FailedWith .tooShort t) ∧
    (Config.params.wdMin ≤ s.input.length → s.input[0]? ≠ some Config.params.head → FailedWith .badHead t) ∧
    (Config.params.wdMin ≤ s.input.length → s.input[0]? = some Config.params.head →
      11 + (256 * (byteAt s.input 6).toNat + (byteAt s.input 7).toNat) ≠ s.input.length →
      FailedWith .lengthMismatch t) ∧
    (Config.params.wdMin ≤ s.input.length → s.input[0]? = some Config.params.head →
      11 + (256 * (byteAt s.input 6).toNat + (byteAt s.input 7).toNat) = s.input.length →
      s.input.drop (s.input.length - 2) ≠ [Config.params.term0, Config.params.term1] → FailedWith .badTerminator t)

/-- R145, both values of `WD_MIN` being open here (log entry 8): `WD_MIN` 10 and 11 give the same ending on every
buffer but one of 10 bytes, which fails under both. -/
def Obligations.WdMinMattersOnlyForTenBytes : Prop :=
  ∀ (P : Params) (B : List Byte),
    (B.length ≠ 10 →
      wiredParseEnding { P with wdMinIsTen := true } B = wiredParseEnding { P with wdMinIsTen := false } B) ∧
    (B.length = 10 →
      wiredParseEnding { P with wdMinIsTen := false } B = .failure .tooShort ∧
      (B[0]? ≠ some P.head → wiredParseEnding { P with wdMinIsTen := true } B = .failure .badHead) ∧
      (B[0]? = some P.head → wiredParseEnding { P with wdMinIsTen := true } B = .failure .lengthMismatch))

/-- R146: replacing the checksum byte of a well-formed frame changes nothing of the parse but `CSUM_OK`. -/
def Obligations.WrongWiredChecksumIsOnlyAFlag : Prop :=
  ∀ (s : State) (c : Byte), WiredWellFormed Config.params s.input →
    ∃ t u : State, exec .wdParse s = .next t ∧
      exec .wdParse (s.withInput (s.input.set (s.input.length - 3) c)) = .next u ∧
      u.flags.err = .ok ∧ u.output = t.output ∧ u.res = t.res ∧ u.flags.dir = t.flags.dir ∧ u.phase = t.phase ∧
      (u.flags.csumOk = true ↔ c = csumAdd (s.input.take (s.input.length - 3)))

/-- R147, R4: the direction of the two sync values, which differ, and of any other. -/
def Obligations.DirectionComesFromTheSyncByte : Prop :=
  ∀ P : Params, P.syncP2H ≠ P.syncH2P ∧ directionOf P P.syncH2P = .hostToPeripheral ∧
    directionOf P P.syncP2H = .peripheralToHost ∧
    ∀ b, b ≠ P.syncH2P → b ≠ P.syncP2H → directionOf P b = .unknown

/-- R148, a law the spec derives: parsing a built wired frame gives back every field. -/
def Obligations.WiredRoundTrip : Prop :=
  ∀ (s : State) (sync : Byte) (feature cmdid : U16), s.opnd.sync = some sync → s.opnd.feature = some feature →
    s.opnd.cmdid = some cmdid → s.input.length ≤ 65535 → 11 + s.input.length ≤ Config.params.bufCap →
    ∃ (t u : State) (F : List Byte), exec .wdBuild s = .next t ∧ t.output = some F ∧
      exec .wdParse (t.withInput F) = .next u ∧ u.output = some s.input ∧
      u.res = { ResultRegs.novalue with
        rSync := some sync, rFeature := some feature, rCmdid := some cmdid,
        rTotal := some (BitVec.ofNat 32 (11 + s.input.length)) } ∧
      u.flags = ⟨true, directionOf Config.params sync, .ok⟩ ∧ u.phase = .done

/-- R149, which the spec derives: what a parse of a built wired frame with one byte changed reports, for every
position of that byte. -/
def Obligations.WiredSingleByteCorruption : Prop :=
  ∀ (s : State) (sync : Byte) (feature cmdid : U16) (payload : List Byte) (k : Nat) (b : Byte),
    payload.length ≤ 65535 → k < 11 + payload.length →
    b ≠ byteAt (wiredFrame Config.params sync feature cmdid payload) k →
    ∃ t, exec .wdParse (s.withInput ((wiredFrame Config.params sync feature cmdid payload).set k b)) = .next t ∧
      (k = 0 → FailedWith .badHead t) ∧
      (6 ≤ k → k < 8 → FailedWith .lengthMismatch t) ∧
      (9 + payload.length ≤ k → FailedWith .badTerminator t) ∧
      (1 ≤ k → k < 9 + payload.length → ¬(6 ≤ k ∧ k < 8) →
        t.flags = ⟨false, directionOf Config.params (if k = 1 then b else sync), .ok⟩ ∧
        t.res.rSync = some (if k = 1 then b else sync) ∧
        t.res.rTotal = some (BitVec.ofNat 32 (11 + payload.length)) ∧
        (∃ f, t.res.rFeature = some f ∧ (f = feature ↔ ¬(2 ≤ k ∧ k < 4))) ∧
        (∃ c, t.res.rCmdid = some c ∧ (c = cmdid ↔ ¬(4 ≤ k ∧ k < 6))) ∧
        t.output = some (if 8 ≤ k then payload.set (k - 8) b else payload))

/-! ## Wireless frames -/

/-- R160, R161, R162, R61: with its operands written and a payload short enough, `WL_BUILD` writes the frame of R61's
table; the payload is encrypted under the hardwired key and the zero iv exactly when `CRYPTO` is `0x02` and the
payload is not empty. -/
def Obligations.WlBuildWritesTheFrame : Prop :=
  ∀ (s : State) (cmdid : U16) (crypto seq : Byte), s.opnd.cmdid = some cmdid → s.opnd.crypto = some crypto →
    s.opnd.seq = some seq → (crypto = 0x02 → s.input.length ≤ 239) → (crypto ≠ 0x02 → s.input.length ≤ 245) →
    ∃ (t : State) (F : List Byte), exec .wlBuild s = .next t ∧ SucceededWith F t ∧ EngineFrame s t ∧
      WirelessLayout Config.params cmdid crypto seq
        (if crypto = 0x02 ∧ s.input ≠ [] then aesCbcEnc s.input Config.params.kDefault Block.zero else s.input) F

/-- R160, R207: `WL_BUILD` fails with `FieldRange` above 245 bytes, above 239 with AES. -/
def Obligations.WlBuildRefusesLongPayloads : Prop :=
  ∀ (s : State) (cmdid : U16) (crypto seq : Byte), s.opnd.cmdid = some cmdid → s.opnd.crypto = some crypto →
    s.opnd.seq = some seq →
    ((crypto = 0x02 ∧ 239 < s.input.length) ∨ (crypto ≠ 0x02 ∧ 245 < s.input.length)) →
    ∃ t, exec .wlBuild s = .next t ∧ FailedWith .fieldRange t ∧ EngineFrame s t

/-- R163: on an accepted buffer `WL_PARSE` returns the fields and the plaintext; on any other it gives the one
sentinel. -/
def Obligations.WlParseReturnsTheFieldsOrNull : Prop :=
  (∀ s : State, WirelessAccepted Config.params s.input →
    ∃ (t : State) (cmdid : U16) (total : U32), exec .wlParse s = .next t ∧ EngineFrame s t ∧ t.phase = .done ∧
      t.flags = ⟨false, .none, .ok⟩ ∧
      t.res = { ResultRegs.novalue with
        rCrypto := some (byteAt s.input 3), rSeq := some (byteAt s.input 4), rCmdid := some cmdid,
        rTotal := some total } ∧
      cmdid.toNat = (byteAt s.input 5).toNat + 256 * (byteAt s.input 6).toNat ∧ total.toNat = s.input.length ∧
      t.output = some (wirelessPlain Config.params ((s.input.drop 7).take (s.input.length - 10)) (byteAt s.input 3))) ∧
  (∀ s : State, ¬ WirelessAccepted Config.params s.input →
    ∃ t, exec .wlParse s = .next t ∧ FailedWith .wlNull t ∧ EngineFrame s t)

/-- R164: the plaintext of a parsed wireless payload; a payload that cannot be decrypted is returned raw. -/
def Obligations.WlParseFallsBackSilently : Prop :=
  ∀ (P : Params) (raw : List Byte) (crypto : Byte),
    (crypto ≠ 0x02 → wirelessPlain P raw crypto = raw) ∧
    (raw = [] → wirelessPlain P raw crypto = []) ∧
    (crypto = 0x02 → raw.length % 16 ≠ 0 → wirelessPlain P raw crypto = raw) ∧
    (crypto = 0x02 → raw ≠ [] → raw.length % 16 = 0 →
      aesCbcDec raw P.kDefault Block.zero = .ok (wirelessPlain P raw crypto))

/-- R166, a law the spec derives: parsing a wireless frame built without encryption gives back every field. -/
def Obligations.WirelessRoundTripPlain : Prop :=
  ∀ (s : State) (cmdid : U16) (crypto seq : Byte), s.opnd.cmdid = some cmdid → s.opnd.crypto = some crypto →
    s.opnd.seq = some seq → crypto ≠ 0x02 → s.input.length ≤ 245 →
    ∃ (t u : State) (F : List Byte), exec .wlBuild s = .next t ∧ t.output = some F ∧
      exec .wlParse (t.withInput F) = .next u ∧ u.output = some s.input ∧
      u.res = { ResultRegs.novalue with
        rCrypto := some crypto, rSeq := some seq, rCmdid := some cmdid,
        rTotal := some (BitVec.ofNat 32 (10 + s.input.length)) } ∧
      u.flags = ⟨false, .none, .ok⟩ ∧ u.phase = .done

/-- R167, a law the spec derives: the same for an encrypted payload of 1 to 239 bytes, and for the empty payload,
which is not encrypted. -/
def Obligations.WirelessRoundTripEncrypted : Prop :=
  ∀ (s : State) (cmdid : U16) (seq : Byte), s.opnd.cmdid = some cmdid → s.opnd.crypto = some 0x02 →
    s.opnd.seq = some seq → s.input.length ≤ 239 →
    ∃ (t u : State) (F : List Byte), exec .wlBuild s = .next t ∧ t.output = some F ∧
      exec .wlParse (t.withInput F) = .next u ∧ u.output = some s.input ∧
      u.res = { ResultRegs.novalue with
        rCrypto := some 0x02, rSeq := some seq, rCmdid := some cmdid,
        rTotal := some (BitVec.ofNat 32 (if s.input = [] then 10 else 10 + 16 * (s.input.length / 16 + 1))) } ∧
      u.flags = ⟨false, .none, .ok⟩ ∧ u.phase = .done

/-- R168, which the spec derives: one changed byte anywhere in a built wireless frame makes the parse give the
sentinel. -/
def Obligations.WirelessSingleByteCorruption : Prop :=
  ∀ (s : State) (cmdid : U16) (body : List Byte) (crypto seq : Byte) (k : Nat) (b : Byte),
    body.length ≤ 245 → k < 10 + body.length → b ≠ byteAt (wirelessFrame Config.params cmdid body crypto seq) k →
    ∃ t, exec .wlParse (s.withInput ((wirelessFrame Config.params cmdid body crypto seq).set k b)) = .next t ∧
      FailedWith .wlNull t

/-- R77, which the spec derives: the parses succeed exactly on the buffers of the three predicates, and an accepted
wireless frame has at most 255 bytes. -/
def Obligations.ParsesAcceptExactlyTheFrames : Prop :=
  ∀ s : State,
    (∃ t, exec .wdParse s = .next t ∧ (t.flags.err = .ok ↔ WiredWellFormed Config.params s.input) ∧
      (t.flags.csumOk = true ↔ WiredIntact Config.params s.input)) ∧
    (∃ t, exec .wlParse s = .next t ∧ (t.flags.err = .ok ↔ WirelessAccepted Config.params s.input)) ∧
    (WirelessAccepted Config.params s.input → s.input.length ≤ 255)

/-- R144 and R163, corner cases: an accepted buffer with its last byte cut off, or with bytes after it, is not
accepted. -/
def Obligations.CutOrExtendedFramesAreNotParsed : Prop :=
  (∀ (s : State) (B X : List Byte), WiredWellFormed Config.params B → X ≠ [] →
    (∃ t, exec .wdParse (s.withInput B.dropLast) = .next t ∧
      (FailedWith .lengthMismatch t ∨ (B.length = 11 ∧ FailedWith .tooShort t))) ∧
    (∃ t, exec .wdParse (s.withInput (B ++ X)) = .next t ∧ FailedWith .lengthMismatch t)) ∧
  (∀ (s : State) (B X : List Byte), WirelessAccepted Config.params B → X ≠ [] →
    (∃ t, exec .wlParse (s.withInput B.dropLast) = .next t ∧ FailedWith .wlNull t) ∧
    (∃ t, exec .wlParse (s.withInput (B ++ X)) = .next t ∧ FailedWith .wlNull t))

/-! ## Host interface -/

/-- R181: a write or a load changes only the register or buffer named; a load replaces `IBUF` whole. That a load past
`BUFCAP`, which the spec says does not exist, is a refusal (log entry 13), and that a reset leaves the host's own
script and replies (log entry 20), are the model's choices. -/
def Obligations.HostWritesChangeOnlyWhatTheyName : Prop :=
  (∀ (s : State) (w : OperandValue), s.phase ≠ .busy →
    ∃ t, step (s.withTurn (.host (.writeReg w))) = .next t ∧
      (∀ r, t.opnd.get r = if r = w.reg then some w.value else s.opnd.get r) ∧ t = { s with opnd := t.opnd }) ∧
  (∀ (s : State) (B : List Byte), s.phase ≠ .busy → B.length ≤ Config.params.bufCap →
    ∃ t, step (s.withTurn (.host (.loadIbuf B))) = .next t ∧
      t.input = B ∧ t.ilen.toNat = B.length ∧ (∀ a, t.ibuf.read a = B[a]?) ∧ t = { s with ibuf := t.ibuf }) ∧
  (∀ (s : State) (B : List Byte), s.phase ≠ .busy → Config.params.bufCap < B.length →
    step (s.withTurn (.host (.loadIbuf B))) = .refused .loadTooLong) ∧
  (∀ s : State, ∃ t, step (s.withTurn (.host .reset)) = .next t ∧ t.script = s.script ∧ t.replies = s.replies)

/-- R182: a start with its operands written latches `OP`, enters `BUSY` and invalidates the results; operands and
`IBUF` stay. No start has a step in `BUSY`. -/
def Obligations.StartLatchesAndInvalidates : Prop :=
  (∀ (s : State) (c : Byte), s.phase ≠ .busy → (∀ i, decode c = .ok i → s.opnd.ready i) →
    ∃ t, step (s.withTurn (.host (.start c))) = .next t ∧ t.op = some c ∧ t.phase = .busy ∧ t.status = 0x0002 ∧
      NoResults t ∧ t.olen = none ∧ (∀ r ∈ resultRegisters, t.resultAt r = none) ∧ t.flags.err = .ok ∧
      t.opnd = s.opnd ∧ t.ibuf = s.ibuf ∧ t.script = s.script ∧ t.replies = s.replies) ∧
  (∀ (s : State) (c : Byte), s.phase = .busy → ∀ t, step (s.withTurn (.host (.start c))) ≠ .next t)

/-- R183: a start of an operation one of whose operands holds `NOVALUE` is refused; a start of a code that selects no
operation is never refused for an operand. -/
def Obligations.StartWithAnUnwrittenOperandIsRefused : Prop :=
  (∀ (s : State) (c : Byte) (i : Instr), s.phase ≠ .busy → decode c = .ok i → ¬ s.opnd.ready i →
    ∃ r ∈ i.reads, s.opnd.get r = none ∧ step (s.withTurn (.host (.start c))) = .refused (.operandNoValue r)) ∧
  (∀ (s : State) (c : Byte), s.phase ≠ .busy → (∀ i, decode c ≠ .ok i) →
    ∃ t, step (s.withTurn (.host (.start c))) = .next t ∧ t.phase = .busy ∧ t.op = some c)

/-- R185: while `BUSY` only `ReadStatus`, which returns `BUSY = 1` and 0 elsewhere, and `Reset` have a step. -/
def Obligations.BusyRefusesAllButStatusAndReset : Prop :=
  ∀ s : State, s.Inv → s.phase = .busy →
    step (s.withTurn (.host .readStatus)) = .next { s with replies := s.replies ++ [⟨.status, .half 0x0002⟩] } ∧
    (∃ t, step (s.withTurn (.host .reset)) = .next t ∧ t.phase = .idle) ∧
    ∀ a : HostAction, a ≠ .readStatus → a ≠ .reset → step (s.withTurn (.host a)) = .refused .accessWhileBusy

/-- R186: a read returns what is held and changes nothing else; a read of `NOVALUE` is refused, in every phase. -/
def Obligations.ReadsReturnWhatIsHeld : Prop :=
  (∀ s : State, step (s.withTurn (.host .readStatus)) = .next { s with replies := s.replies ++ [⟨.status, .half s.status⟩] }) ∧
  (∀ (s : State) (r : ReadableReg), s.phase ≠ .busy → ∀ v, s.readable r = some v →
    step (s.withTurn (.host (.readReg r))) = .next { s with replies := s.replies ++ [⟨r.reg, v⟩] }) ∧
  (∀ (s : State) (r : ReadableReg), s.readable r = none →
    ∃ e, step (s.withTurn (.host (.readReg r))) = .refused e ∧ (s.phase ≠ .busy → e = .readNoValue r.reg)) ∧
  (∀ (s : State) (r : ResultLoc), s.phase = .done → ∀ v, s.resultAt r = some v →
    step (s.withTurn (.host (.readResult r))) = .next { s with replies := s.replies ++ [⟨r.reg, v⟩] }) ∧
  (∀ (s : State) (r : ResultLoc), s.resultAt r = none →
    ∃ e, step (s.withTurn (.host (.readResult r))) = .refused e ∧ (s.phase = .done → e = .readNoValue r.reg)) ∧
  (∀ (s : State) (w : OperandValue), ({ s with opnd := s.opnd.set w } : State).readable (.operand w.reg) = some w.value)

/-- R32, R230: what a reset leaves, from any phase. -/
def Obligations.ResetLeavesTheResetValues : Prop :=
  ∀ s : State, ∃ t, step (s.withTurn (.host .reset)) = .next t ∧ t.phase = .idle ∧ t.status = 0x0000 ∧ t.ilen = 0 ∧
    t.input = [] ∧ (∀ a, t.ibuf.read a = none) ∧ t.op = none ∧ (∀ r, t.opnd.get r = none) ∧ t.obuf = none ∧
    t.olen = none ∧ (∀ r ∈ resultRegisters, t.resultAt r = none)

/-- R16: the fields of the status word, in every state; 0 in every other field while `BUSY`; 0 after reset. -/
def Obligations.StatusWordFields : Prop :=
  (∀ s : State,
    s.status.getLsbD 0 = decide (s.phase = .done) ∧ s.status.getLsbD 1 = decide (s.phase = .busy) ∧
    s.status.getLsbD 2 = s.flags.csumOk ∧ s.status.extractLsb' 3 2 = s.flags.dir.code ∧
    s.status.extractLsb' 5 3 = 0 ∧ s.status.extractLsb' 8 4 = s.flags.err.code ∧ s.status.extractLsb' 12 4 = 0) ∧
  Direction.none.code = 0 ∧ Direction.hostToPeripheral.code = 1 ∧ Direction.peripheralToHost.code = 2 ∧
  Direction.unknown.code = 3 ∧
  (∀ s : State, s.Inv → s.phase = .busy → s.status = 0x0002) ∧ State.reset.status = 0x0000

/-- R200: the numbers of the error codes, and which operation can leave which. -/
def Obligations.ErrorCodeNumbers : Prop :=
  ([.ok, .tooShort, .badHead, .lengthMismatch, .badTerminator, .wlNull, .badCipherLen, .fieldRange, .bufOverflow,
      .badOp] : List ErrCode).map (fun e => e.code.toNat) = [0, 1, 2, 3, 4, 5, 6, 7, 8, 9] ∧
  ∀ (i : Instr) (s t : State), exec i s = .next t →
    t.status.extractLsb' 8 4 = t.flags.err.code ∧ (t.flags.err = .ok ∨ t.flags.err ∈ i.canFailWith)

/-! ## The engine as a whole -/

/-- R212, R71, R15: an operation that completes leaves either all of its own results and `ERR = OK`, or no result and
one of its own error codes; it touches nothing else. -/
def Obligations.CompletionIsAllOrNothing : Prop :=
  ∀ (i : Instr) (s t : State), exec i s = .next t →
    EngineFrame s t ∧ (OwnResults i t ∨ ∃ e ∈ i.canFailWith, FailedWith e t)

/-- R21: `CSUM_OK` and `DIR` come from a successful wired parse alone, whatever the command byte, and no operation
depends on a flag. -/
def Obligations.FlagsComeFromTheWiredParse : Prop :=
  (∀ (c : Byte) (s t : State), runCommand c s = .next t →
    (t.flags.csumOk = true ↔ decode c = .ok .wdParse ∧ WiredIntact Config.params s.input) ∧
    (t.flags.dir =
      if decode c = .ok .wdParse ∧ t.flags.err = .ok then directionOf Config.params (byteAt s.input 1) else .none) ∧
    directionOf Config.params (byteAt s.input 1) ≠ .none) ∧
  (∀ (i : Instr) (s : State) (f : Flags), exec i { s with flags := f } = exec i s)

/-- R183, R23: an operation has a next state exactly when every operand register it reads holds a value. That the
operation itself, and not only its start, is refused otherwise is the model's choice (log entry 15). -/
def Obligations.OperationsRunExactlyOnWrittenOperands : Prop :=
  ∀ (i : Instr) (s : State),
    (s.opnd.ready i → ∃ t, exec i s = .next t) ∧
    (¬ s.opnd.ready i → ∃ r ∈ i.reads, s.opnd.get r = none ∧ exec i s = .refused (.operandNoValue r))

/-- R46, R12, R213: the results of an operation are a function of the operand registers it reads and of `IBUF` alone;
so the wireless pair ignores `KEY` and `IV`, and no error or result left behind matters. -/
def Obligations.OperationsDependOnlyOnTheirOperands : Prop :=
  ∀ (i : Instr) (s u : State), s.input = u.input → (∀ r ∈ i.reads, s.opnd.get r = u.opnd.get r) →
    (∃ r, exec i s = .refused r ∧ exec i u = .refused r) ∨
    (∃ s' u' : State, exec i s = .next s' ∧ exec i u = .next u' ∧ s'.obuf = u'.obuf ∧ s'.res = u'.res ∧
      s'.flags = u'.flags)

/-- R32 with R30, R13, R14: the invariant holds after reset. -/
def Obligations.ResetMeetsTheInvariant : Prop := State.reset.Inv

/-- R13, R14, R16, R30, R48, R71, R182 to R185, R200, R201: every step, of the engine or of the host, keeps the
invariant: both buffers canonical and within `BUFCAP`; nothing held in `IDLE`; in `BUSY` no result, a latched command
and every operand it reads; in `DONE` exactly the results of that command or one of its errors. -/
def Obligations.EveryStepKeepsTheInvariant : Prop :=
  ∀ s t : State, s.Inv → step s = .next t → t.Inv

/-- R184, R234: in every state that meets the invariant a started operation completes in one engine step. -/
def Obligations.BusyEngineAlwaysCompletes : Prop :=
  ∀ s : State, s.Inv → s.phase = .busy → ∃ t, step (s.withTurn .engine) = .next t ∧ t.phase = .done ∧ EngineFrame s t

/-- R180, R184, R185: a host that polls `STATUS` any number of times while `BUSY` reads `0x0002` each time, and the
run ends with the operation done. That the engine moves when the script is empty is the model's choice (log entry 1).
-/
def Obligations.PollingEndsWithCompletion : Prop :=
  ∀ (n : Nat) (s : State), s.Inv → s.phase = .busy → s.script = List.replicate n (.host .readStatus) →
    ∃ t : State, Sys2Proof.core.run (n + 1) s = .next t ∧ t.phase = .done ∧ t.endedWell ∧
      t.replies = s.replies ++ List.replicate n ⟨.status, .half 0x0002⟩

/-- R49, R181, R186: once `DONE`, results, flags and `OP` stay through every turn but a start or a reset. -/
def Obligations.ResultsStayUntilStartOrReset : Prop :=
  ∀ (s t : State) (T : Turn), s.phase = .done → (∀ c, T ≠ .host (.start c)) → T ≠ .host .reset →
    step (s.withTurn T) = .next t →
    t.phase = .done ∧ t.obuf = s.obuf ∧ t.res = s.res ∧ t.flags = s.flags ∧ t.op = s.op ∧ t.status = s.status

/-- R14, R15, R21: no host action gives a result location or a flag a value: it keeps it or clears it. -/
def Obligations.OnlyTheEngineWritesResults : Prop :=
  ∀ (s t : State) (a : HostAction), step (s.withTurn (.host a)) = .next t →
    (∀ r, t.resultAt r = s.resultAt r ∨ t.resultAt r = none) ∧ (t.flags = s.flags ∨ t.flags = Flags.clear) ∧
    (t.phase = .done → s.phase = .done)

/-- R7: the bytes of a field written in each byte order, and the value of a field read in each; that a written field
reads back anywhere in a buffer is derived from these definitions. -/
def Obligations.TwoByteFieldsReadBack : Prop :=
  (∀ v : U16,
    be16 v = [BitVec.ofNat 8 (v.toNat / 256), BitVec.ofNat 8 (v.toNat % 256)] ∧
    le16 v = [BitVec.ofNat 8 (v.toNat % 256), BitVec.ofNat 8 (v.toNat / 256)]) ∧
  (∀ (B : List Byte) (i : Nat) (_ : i + 1 < B.length),
    (rdBE16 B i).toNat = B[i].toNat * 256 + B[i + 1].toNat ∧
    (rdLE16 B i).toNat = B[i].toNat + B[i + 1].toNat * 256) ∧
  (∀ (X Y : List Byte) (v : U16),
    rdBE16 (X ++ be16 v ++ Y) X.length = v ∧ rdLE16 (X ++ le16 v ++ Y) X.length = v)
end

