-- ==== Sys2Proof/Laws/State.lean ====
section
/-!
SUPPORT. One lemma per field for every update of the state, so that no proof unfolds a record update.
-/

namespace Sys2Proof.Machine

/-! The error entry (R201). -/

@[simp] theorem State.failWith_opnd (s : State) (e : ErrCode) : (s.failWith e).opnd = s.opnd := rfl
@[simp] theorem State.failWith_ibuf (s : State) (e : ErrCode) : (s.failWith e).ibuf = s.ibuf := rfl
@[simp] theorem State.failWith_obuf (s : State) (e : ErrCode) : (s.failWith e).obuf = none := rfl
@[simp] theorem State.failWith_res (s : State) (e : ErrCode) : (s.failWith e).res = ResultRegs.novalue := rfl
@[simp] theorem State.failWith_flags (s : State) (e : ErrCode) : (s.failWith e).flags = ⟨false, .none, e⟩ := rfl
@[simp] theorem State.failWith_op (s : State) (e : ErrCode) : (s.failWith e).op = s.op := rfl
@[simp] theorem State.failWith_phase (s : State) (e : ErrCode) : (s.failWith e).phase = .done := rfl
@[simp] theorem State.failWith_script (s : State) (e : ErrCode) : (s.failWith e).script = s.script := rfl
@[simp] theorem State.failWith_replies (s : State) (e : ErrCode) : (s.failWith e).replies = s.replies := rfl

/-! Completion with results (R184). -/

@[simp] theorem State.succeedWith_opnd (s : State) (out : List Byte) (res : ResultRegs) (c : Bool) (d : Direction) : (s.succeedWith out res c d).opnd = s.opnd := rfl
@[simp] theorem State.succeedWith_ibuf (s : State) (out : List Byte) (res : ResultRegs) (c : Bool) (d : Direction) : (s.succeedWith out res c d).ibuf = s.ibuf := rfl
@[simp] theorem State.succeedWith_obuf (s : State) (out : List Byte) (res : ResultRegs) (c : Bool) (d : Direction) : (s.succeedWith out res c d).obuf = some (Memory.load out) := rfl
@[simp] theorem State.succeedWith_res (s : State) (out : List Byte) (res : ResultRegs) (c : Bool) (d : Direction) : (s.succeedWith out res c d).res = res := rfl
@[simp] theorem State.succeedWith_flags (s : State) (out : List Byte) (res : ResultRegs) (c : Bool) (d : Direction) : (s.succeedWith out res c d).flags = ⟨c, d, .ok⟩ := rfl
@[simp] theorem State.succeedWith_op (s : State) (out : List Byte) (res : ResultRegs) (c : Bool) (d : Direction) : (s.succeedWith out res c d).op = s.op := rfl
@[simp] theorem State.succeedWith_phase (s : State) (out : List Byte) (res : ResultRegs) (c : Bool) (d : Direction) : (s.succeedWith out res c d).phase = .done := rfl
@[simp] theorem State.succeedWith_script (s : State) (out : List Byte) (res : ResultRegs) (c : Bool) (d : Direction) : (s.succeedWith out res c d).script = s.script := rfl
@[simp] theorem State.succeedWith_replies (s : State) (out : List Byte) (res : ResultRegs) (c : Bool) (d : Direction) : (s.succeedWith out res c d).replies = s.replies := rfl

/-! Start (R182). -/

@[simp] theorem State.started_opnd (s : State) (code : Byte) : (s.started code).opnd = s.opnd := rfl
@[simp] theorem State.started_ibuf (s : State) (code : Byte) : (s.started code).ibuf = s.ibuf := rfl
@[simp] theorem State.started_obuf (s : State) (code : Byte) : (s.started code).obuf = none := rfl
@[simp] theorem State.started_res (s : State) (code : Byte) : (s.started code).res = ResultRegs.novalue := rfl
@[simp] theorem State.started_flags (s : State) (code : Byte) : (s.started code).flags = Flags.clear := rfl
@[simp] theorem State.started_op (s : State) (code : Byte) : (s.started code).op = some code := rfl
@[simp] theorem State.started_phase (s : State) (code : Byte) : (s.started code).phase = .busy := rfl
@[simp] theorem State.started_script (s : State) (code : Byte) : (s.started code).script = s.script := rfl
@[simp] theorem State.started_replies (s : State) (code : Byte) : (s.started code).replies = s.replies := rfl

/-! Reset (R230). -/

@[simp] theorem State.resetEngine_opnd (s : State) : (s.resetEngine).opnd = OperandRegs.novalue := rfl
@[simp] theorem State.resetEngine_ibuf (s : State) : (s.resetEngine).ibuf = [] := rfl
@[simp] theorem State.resetEngine_obuf (s : State) : (s.resetEngine).obuf = none := rfl
@[simp] theorem State.resetEngine_res (s : State) : (s.resetEngine).res = ResultRegs.novalue := rfl
@[simp] theorem State.resetEngine_flags (s : State) : (s.resetEngine).flags = Flags.clear := rfl
@[simp] theorem State.resetEngine_op (s : State) : (s.resetEngine).op = none := rfl
@[simp] theorem State.resetEngine_phase (s : State) : (s.resetEngine).phase = .idle := rfl
@[simp] theorem State.resetEngine_script (s : State) : (s.resetEngine).script = s.script := rfl
@[simp] theorem State.resetEngine_replies (s : State) : (s.resetEngine).replies = s.replies := rfl

/-! A host read's answer (R186). -/

@[simp] theorem State.reply_opnd (s : State) (r : Reg) (v : Value) : (s.reply r v).opnd = s.opnd := rfl
@[simp] theorem State.reply_ibuf (s : State) (r : Reg) (v : Value) : (s.reply r v).ibuf = s.ibuf := rfl
@[simp] theorem State.reply_obuf (s : State) (r : Reg) (v : Value) : (s.reply r v).obuf = s.obuf := rfl
@[simp] theorem State.reply_res (s : State) (r : Reg) (v : Value) : (s.reply r v).res = s.res := rfl
@[simp] theorem State.reply_flags (s : State) (r : Reg) (v : Value) : (s.reply r v).flags = s.flags := rfl
@[simp] theorem State.reply_op (s : State) (r : Reg) (v : Value) : (s.reply r v).op = s.op := rfl
@[simp] theorem State.reply_phase (s : State) (r : Reg) (v : Value) : (s.reply r v).phase = s.phase := rfl
@[simp] theorem State.reply_script (s : State) (r : Reg) (v : Value) : (s.reply r v).script = s.script := rfl
@[simp] theorem State.reply_replies (s : State) (r : Reg) (v : Value) : (s.reply r v).replies = s.replies ++ [⟨r, v⟩] := rfl

/-! The placing of a command. -/

@[simp] theorem State.placeCommand_opnd (s : State) (code : Byte) : (s.placeCommand code).opnd = s.opnd.fillFor code := rfl
@[simp] theorem State.placeCommand_ibuf (s : State) (code : Byte) : (s.placeCommand code).ibuf = s.ibuf := rfl
@[simp] theorem State.placeCommand_obuf (s : State) (code : Byte) : (s.placeCommand code).obuf = none := rfl
@[simp] theorem State.placeCommand_res (s : State) (code : Byte) : (s.placeCommand code).res = ResultRegs.novalue := rfl
@[simp] theorem State.placeCommand_flags (s : State) (code : Byte) : (s.placeCommand code).flags = Flags.clear := rfl
@[simp] theorem State.placeCommand_op (s : State) (code : Byte) : (s.placeCommand code).op = some code := rfl
@[simp] theorem State.placeCommand_phase (s : State) (code : Byte) : (s.placeCommand code).phase = .busy := rfl
@[simp] theorem State.placeCommand_script (s : State) (code : Byte) : (s.placeCommand code).script = .engine :: s.script := rfl
@[simp] theorem State.placeCommand_replies (s : State) (code : Byte) : (s.placeCommand code).replies = s.replies := rfl

/-! The two ways an operation ends. -/

@[simp] theorem State.complete_success (s : State) (out : List Byte) (res : ResultRegs) (c : Bool) (d : Direction) :
    s.complete (.success out res c d) = s.succeedWith out res c d := rfl
@[simp] theorem State.complete_bytes (s : State) (out : List Byte) :
    s.complete (.bytes out) = s.succeedWith out ResultRegs.novalue false .none := rfl
@[simp] theorem State.complete_failure (s : State) (e : ErrCode) : s.complete (.failure e) = s.failWith e := rfl
@[simp] theorem State.complete_opnd (s : State) (E : Ending) : (s.complete E).opnd = s.opnd := by cases E <;> rfl
@[simp] theorem State.complete_ibuf (s : State) (E : Ending) : (s.complete E).ibuf = s.ibuf := by cases E <;> rfl
@[simp] theorem State.complete_op (s : State) (E : Ending) : (s.complete E).op = s.op := by cases E <;> rfl
@[simp] theorem State.complete_script (s : State) (E : Ending) : (s.complete E).script = s.script := by cases E <;> rfl
@[simp] theorem State.complete_replies (s : State) (E : Ending) : (s.complete E).replies = s.replies := by cases E <;> rfl
@[simp] theorem State.complete_phase (s : State) (E : Ending) : (s.complete E).phase = .done := by cases E <;> rfl

/-! The state after reset (R32). -/

@[simp] theorem State.reset_opnd : State.reset.opnd = OperandRegs.novalue := rfl
@[simp] theorem State.reset_ibuf : State.reset.ibuf = [] := rfl
@[simp] theorem State.reset_obuf : State.reset.obuf = none := rfl
@[simp] theorem State.reset_res : State.reset.res = ResultRegs.novalue := rfl
@[simp] theorem State.reset_flags : State.reset.flags = Flags.clear := rfl
@[simp] theorem State.reset_op : State.reset.op = none := rfl
@[simp] theorem State.reset_phase : State.reset.phase = .idle := rfl
@[simp] theorem State.reset_script : State.reset.script = [] := rfl
@[simp] theorem State.reset_replies : State.reset.replies = [] := rfl

/-! Register groups. -/

@[simp] theorem OperandRegs.novalue_get (r : OperandReg) : OperandRegs.novalue.get r = none := by cases r <;> rfl
@[simp] theorem Flags.clear_csumOk : Flags.clear.csumOk = false := rfl
@[simp] theorem Flags.clear_dir : Flags.clear.dir = .none := rfl
@[simp] theorem Flags.clear_err : Flags.clear.err = .ok := rfl
@[simp] theorem ResultRegs.novalue_rSync : ResultRegs.novalue.rSync = none := rfl
@[simp] theorem ResultRegs.novalue_rFeature : ResultRegs.novalue.rFeature = none := rfl
@[simp] theorem ResultRegs.novalue_rCmdid : ResultRegs.novalue.rCmdid = none := rfl
@[simp] theorem ResultRegs.novalue_rCrypto : ResultRegs.novalue.rCrypto = none := rfl
@[simp] theorem ResultRegs.novalue_rSeq : ResultRegs.novalue.rSeq = none := rfl
@[simp] theorem ResultRegs.novalue_rTotal : ResultRegs.novalue.rTotal = none := rfl

end Sys2Proof.Machine
end

