-- ==== Sys2Proof/Laws/Memory.lean ====
section
/-!
SUPPORT. The buffers: what a whole-buffer write holds, that it is in canonical form, and what a canonical buffer
reads as (spec 10_state.md R13, R14; 20_memory.md R40).
-/

namespace Sys2Proof.Machine

@[simp] theorem Memory.bytes_nil : Memory.bytes [] = [] := rfl

@[simp] theorem Memory.bytes_loadFrom (a : Nat) (bs : List Byte) : (Memory.loadFrom a bs).bytes = bs := by
  induction bs generalizing a with
  | nil => rfl
  | cons b bs ih => simpa [Memory.loadFrom, Memory.bytes] using ih (a + 1)

/-- A buffer reads back whole what was written to it. -/
@[simp] theorem Memory.bytes_load (bs : List Byte) : (Memory.load bs).bytes = bs := Memory.bytes_loadFrom 0 bs

@[simp] theorem Memory.length_bytes (m : Memory) : m.bytes.length = List.length m := List.length_map ..

@[simp] theorem Memory.length_load (bs : List Byte) : List.length (Memory.load bs) = bs.length := by
  rw [← Memory.length_bytes, Memory.bytes_load]

theorem Memory.indices_loadFrom (a : Nat) (bs : List Byte) :
    (Memory.loadFrom a bs).map (·.1) = List.range' a bs.length := by
  induction bs generalizing a with
  | nil => rfl
  | cons b bs ih => simp [Memory.loadFrom, List.range'_succ, ih]

/-- Every write to a buffer leaves it in canonical form. -/
theorem Memory.wf_load (bs : List Byte) : (Memory.load bs).wf := by
  simp [Memory.wf, Memory.load, Memory.indices_loadFrom, List.range_eq_range', ← Memory.length_load bs]

theorem Memory.wf_nil : Memory.wf [] := rfl

theorem Memory.read_loadFrom (a : Nat) (bs : List Byte) (i : Nat) :
    (Memory.loadFrom a bs).read i = if i < a then none else bs[i - a]? := by
  induction bs generalizing a with
  | nil => simp [Memory.loadFrom, Memory.read, Memory.unlisted]
  | cons b bs ih =>
    have key := ih (a + 1)
    simp only [Memory.read, Memory.loadFrom, List.find?_cons] at key ⊢
    by_cases h : a = i
    · subst h; simp
    · have hne : (a == i) = false := by simpa using h
      rw [hne]
      simp only
      rw [key]
      by_cases hlt : i < a
      · simp [hlt, Nat.lt_succ_of_lt hlt]
      · have hia : i - a = (i - (a + 1)) + 1 := by omega
        have hlt' : ¬ i < a + 1 := by omega
        simp [hlt, hlt', hia]

/-- The byte at an index of a buffer just written; past the end there is none. -/
@[simp] theorem Memory.read_load (bs : List Byte) (i : Nat) : (Memory.load bs).read i = bs[i]? := by
  simp [Memory.load, Memory.read_loadFrom]

/-- A canonical buffer is the one a write of its bytes gives. -/
theorem Memory.load_bytes {m : Memory} (h : m.wf) : Memory.load m.bytes = m := by
  have hi : (Memory.load m.bytes).map (·.1) = m.map (·.1) := by
    rw [Memory.wf_load m.bytes, h, Memory.length_load, Memory.length_bytes]
  have hb : (Memory.load m.bytes).map (·.2) = m.map (·.2) := Memory.bytes_load m.bytes
  have hz : ∀ l : Memory, l = (l.map (·.1)).zip (l.map (·.2)) := by
    intro l; induction l with
    | nil => rfl
    | cons c l ih => simp [← ih]
  calc Memory.load m.bytes
      = ((Memory.load m.bytes).map (·.1)).zip ((Memory.load m.bytes).map (·.2)) := hz _
    _ = (m.map (·.1)).zip (m.map (·.2)) := by rw [hi, hb]
    _ = m := (hz m).symm

/-- Reading an index of a canonical buffer is indexing its bytes. -/
theorem Memory.read_eq_bytes {m : Memory} (h : m.wf) (i : Nat) : m.read i = m.bytes[i]? := by
  conv_lhs => rw [← Memory.load_bytes h]
  exact Memory.read_load ..

/-- Canonical buffers with the same bytes are the same buffer. -/
theorem Memory.ext_bytes {m n : Memory} (hm : m.wf) (hn : n.wf) (h : m.bytes = n.bytes) : m = n := by
  rw [← Memory.load_bytes hm, ← Memory.load_bytes hn, h]

/-! Views of the buffers in the state. -/

@[simp] theorem State.output_failWith (s : State) (e : ErrCode) : (s.failWith e).output = none := rfl

@[simp] theorem State.output_succeedWith (s : State) (out : List Byte) (res : ResultRegs) (c : Bool) (d : Direction) :
    (s.succeedWith out res c d).output = some out := by simp [State.output]

@[simp] theorem State.olen_failWith (s : State) (e : ErrCode) : (s.failWith e).olen = none := rfl

@[simp] theorem State.olen_succeedWith (s : State) (out : List Byte) (res : ResultRegs) (c : Bool) (d : Direction) :
    (s.succeedWith out res c d).olen = some (BitVec.ofNat 32 out.length) := by simp [State.olen]

@[simp] theorem State.input_length (s : State) : s.input.length = List.length s.ibuf := Memory.length_bytes _

@[simp] theorem State.input_complete (s : State) (E : Ending) : (s.complete E).input = s.input := by
  simp [State.input]

end Sys2Proof.Machine
end

