-- ==== Sys2Proof/Laws/Operands.lean ====
section
/-!
SUPPORT. Operand forms: when reading an operand goes on, which operands are missing, what a write of an operand
register leaves in each, bytes of a concatenation, and the bytes and values of two-byte fields (spec R7, R11, R71).
-/

namespace Sys2Proof

/-! Capacity and parameters (R4). -/

theorem Params.bufCap_ge (P : Params) : 272 ≤ P.bufCap := Nat.le_add_left ..

theorem Params.bufCap_lt (P : Params) : P.bufCap < 2 ^ 32 := by
  have := P.bufSpare.isLt
  simp only [Params.bufCap]; omega

/-- What the capacity check says. -/
@[simp] theorem Params.fits_iff (P : Params) (n : Nat) : P.fits n = true ↔ n ≤ P.bufCap := by
  have := P.bufCap_ge
  simp only [Params.fits, Bool.or_eq_true, decide_eq_true_eq]; omega

theorem Params.wdMin_cases (P : Params) : P.wdMin = 10 ∨ P.wdMin = 11 := by
  unfold Params.wdMin; split <;> simp

/-! Single bytes of a buffer. -/

theorem byteAt_eq_getElem {B : List Byte} {i : Nat} (h : i < B.length) : byteAt B i = B[i] := by
  simp [byteAt, List.getD, h]

theorem getElem?_eq_byteAt {B : List Byte} {i : Nat} (h : i < B.length) : B[i]? = some (byteAt B i) := by
  rw [byteAt_eq_getElem h, List.getElem?_eq_getElem h]

theorem byteAt_of_ge {B : List Byte} {i : Nat} (h : B.length ≤ i) : byteAt B i = 0 := by
  simp [byteAt, List.getD, h]

@[simp] theorem byteAt_cons_zero (b : Byte) (B : List Byte) : byteAt (b :: B) 0 = b := rfl

@[simp] theorem byteAt_cons_succ (b : Byte) (B : List Byte) (i : Nat) : byteAt (b :: B) (i + 1) = byteAt B i := by
  simp [byteAt]

theorem byteAt_append_left {X Y : List Byte} {i : Nat} (h : i < X.length) : byteAt (X ++ Y) i = byteAt X i := by
  simp [byteAt, List.getElem?_append_left h]

theorem byteAt_append_right {X Y : List Byte} {i : Nat} (h : X.length ≤ i) :
    byteAt (X ++ Y) i = byteAt Y (i - X.length) := by
  simp [byteAt, List.getElem?_append_right h]

theorem byteAt_set {B : List Byte} {k i : Nat} {b : Byte} (h : k < B.length) :
    byteAt (B.set k b) i = if i = k then b else byteAt B i := by
  by_cases hk : i = k
  · subst hk; simp [byteAt, h]
  · simp [byteAt, hk, Ne.symm hk]

theorem byteAt_drop (B : List Byte) (n i : Nat) : byteAt (B.drop n) i = byteAt B (n + i) := by
  simp [byteAt, List.getElem?_drop]

theorem byteAt_take {B : List Byte} {n i : Nat} (h : i < n) : byteAt (B.take n) i = byteAt B i := by
  simp [byteAt, h]

/-! Two-byte fields. -/

@[simp] theorem length_be16 (v : U16) : (be16 v).length = 2 := rfl
@[simp] theorem length_le16 (v : U16) : (le16 v).length = 2 := rfl

theorem rdBE16_toNat (B : List Byte) (i : Nat) :
    (rdBE16 B i).toNat = 256 * (byteAt B i).toNat + (byteAt B (i + 1)).toNat := by
  have h1 := (byteAt B (i + 1)).isLt
  have e : (rdBE16 B i).toNat = (byteAt B i).toNat <<< 8 ||| (byteAt B (i + 1)).toNat := BitVec.toNat_append ..
  rw [e, Nat.shiftLeft_eq, Nat.mul_comm, ← Nat.two_pow_add_eq_or_of_lt h1]

theorem rdLE16_toNat (B : List Byte) (i : Nat) :
    (rdLE16 B i).toNat = (byteAt B i).toNat + 256 * (byteAt B (i + 1)).toNat := by
  have h1 := (byteAt B i).isLt
  have e : (rdLE16 B i).toNat = (byteAt B (i + 1)).toNat <<< 8 ||| (byteAt B i).toNat := BitVec.toNat_append ..
  rw [e, Nat.shiftLeft_eq, Nat.mul_comm, ← Nat.two_pow_add_eq_or_of_lt h1, Nat.add_comm]

theorem highByte_append_lowByte (v : U16) : (v.extractLsb' 8 8 ++ v.extractLsb' 0 8 : BitVec 16) = v := by
  ext i hi
  simp only [BitVec.getElem_append, BitVec.getElem_extractLsb']
  split
  · rw [Nat.zero_add, BitVec.getLsbD_eq_getElem]
  · have : 8 + (i - 8) = i := by omega
    rw [this]; simp [hi]

/-! Blocks as byte sequences. -/

@[simp] theorem Block.length_bytes (k : Block) : k.bytes.length = 16 := rfl

/-- A block's bytes, whatever follows them, give the block back. -/
@[simp] theorem Block.ofBytes_bytes_append (k : Block) (X : List Byte) : Block.ofBytes (k.bytes ++ X) = k := rfl

@[simp] theorem Block.ofBytes_bytes (k : Block) : Block.ofBytes k.bytes = k := rfl

theorem Block.bytes_ofBytes {B : List Byte} (h : 16 ≤ B.length) : (Block.ofBytes B).bytes = B.take 16 := by
  match B, h with
  | _ :: _ :: _ :: _ :: _ :: _ :: _ :: _ :: _ :: _ :: _ :: _ :: _ :: _ :: _ :: _ :: _, _ => rfl

/-! Exclusive or of blocks. -/

theorem Block.xor_xor_cancel (x y : Block) : Block.xor (Block.xor x y) y = x := by
  cases x; cases y; simp [Block.xor]

end Sys2Proof

namespace Sys2Proof.Machine

/-! Reading an operand. -/

@[simp] theorem needOperand_some {α : Type} (v : α) (r : OperandReg) (k : α → Host.Outcome State Fault Refusal) :
    needOperand (some v) r k = k v := rfl

@[simp] theorem needOperand_none {α : Type} (r : OperandReg) (k : α → Host.Outcome State Fault Refusal) :
    needOperand none r k = .refused (.operandNoValue r) := rfl

/-- All that reading an operand can do when a next state comes of it. -/
theorem needOperand_next {α : Type} {o : Option α} {r : OperandReg} {k : α → Host.Outcome State Fault Refusal} {t : State}
    (h : needOperand o r k = .next t) : ∃ v, o = some v ∧ k v = .next t := by
  cases o with
  | none => cases h
  | some v => exact ⟨v, rfl, h⟩

/-! Missing and written operands. -/

theorem OperandRegs.missing_eq_none {o : OperandRegs} {i : Instr} : o.missing i = none ↔ o.ready i := by
  simp [OperandRegs.missing, OperandRegs.ready, Option.isSome_iff_ne_none]

theorem OperandRegs.missing_eq_some {o : OperandRegs} {i : Instr} {r : OperandReg} (h : o.missing i = some r) :
    r ∈ i.reads ∧ o.get r = none := by
  have h1 := List.mem_of_find?_eq_some h
  have h2 := List.find?_some h
  exact ⟨h1, by simpa using h2⟩

/-- An operand register after a write: the one named holds the value, the others what they held. -/
theorem OperandRegs.get_set_sync (o : OperandRegs) (v : Byte) (r : OperandReg) :
    (o.set (.sync v)).get r = if r = .sync then some (.byte v) else o.get r := by cases r <;> rfl

theorem OperandRegs.get_set_feature (o : OperandRegs) (v : U16) (r : OperandReg) :
    (o.set (.feature v)).get r = if r = .feature then some (.half v) else o.get r := by cases r <;> rfl

theorem OperandRegs.get_set_cmdid (o : OperandRegs) (v : U16) (r : OperandReg) :
    (o.set (.cmdid v)).get r = if r = .cmdid then some (.half v) else o.get r := by cases r <;> rfl

theorem OperandRegs.get_set_crypto (o : OperandRegs) (v : Byte) (r : OperandReg) :
    (o.set (.crypto v)).get r = if r = .crypto then some (.byte v) else o.get r := by cases r <;> rfl

theorem OperandRegs.get_set_seq (o : OperandRegs) (v : Byte) (r : OperandReg) :
    (o.set (.seq v)).get r = if r = .seq then some (.byte v) else o.get r := by cases r <;> rfl

theorem OperandRegs.get_set_result (o : OperandRegs) (v : Byte) (r : OperandReg) :
    (o.set (.result v)).get r = if r = .result then some (.byte v) else o.get r := by cases r <;> rfl

theorem OperandRegs.get_set_key (o : OperandRegs) (v : Block) (r : OperandReg) :
    (o.set (.key v)).get r = if r = .key then some (.block v) else o.get r := by cases r <;> rfl

theorem OperandRegs.get_set_iv (o : OperandRegs) (v : Block) (r : OperandReg) :
    (o.set (.iv v)).get r = if r = .iv then some (.block v) else o.get r := by cases r <;> rfl

end Sys2Proof.Machine
end

