-- ==== Sys2Proof/Laws/Cipher.lean ====
section
/-!
SUPPORT. The cipher: `xtime` and `gmul` as maps linear over exclusive or, and the shape of padding, blocks and chains
(spec 41_aes_block.md R102, 42_aes_cbc.md R120 to R125).
-/

namespace Sys2Proof.Machine

/-- `xtime` as a shift and a conditional exclusive or (R102). -/
theorem xtime_eq (a : Byte) : xtime a = (a <<< 1) ^^^ (if a.msb then 0x1B else 0) := by
  revert a; decide +kernel

theorem xtime_zero : xtime 0 = 0 := by decide

theorem xtime_xor (a b : Byte) : xtime (a ^^^ b) = xtime a ^^^ xtime b := by
  simp only [xtime_eq, BitVec.msb_xor, BitVec.shiftLeft_xor_distrib]
  have key : ∀ p q : Bool, ((if (p ^^ q) = true then 0x1B else 0) : Byte) =
      (if p = true then 0x1B else 0) ^^^ (if q = true then 0x1B else 0) := by decide
  rw [key]
  ac_rfl

theorem gmulLoop_xor (fuel : Nat) (r r' a a' b : Byte) :
    gmulLoop fuel (r ^^^ r') (a ^^^ a') b = gmulLoop fuel r a b ^^^ gmulLoop fuel r' a' b := by
  induction fuel generalizing r r' a a' b with
  | zero => rfl
  | succ n ih =>
    simp only [gmulLoop, xtime_xor]
    split
    · rfl
    · rw [← ih]
      congr 1
      split
      · ac_rfl
      · rfl

/-! Lengths and blocks. -/

@[simp] theorem length_chainEnc (key : Block) (prev : Block) (ms : List Block) :
    (chainEnc key prev ms).length = ms.length := by
  induction ms generalizing prev with
  | nil => rfl
  | cons m ms ih => simp [chainEnc, ih]

@[simp] theorem length_chainDec (key : Block) (prev : Block) (cs : List Block) :
    (chainDec key prev cs).length = cs.length := by
  induction cs generalizing prev with
  | nil => rfl
  | cons c cs ih => simp [chainDec, ih]

@[simp] theorem length_blocksOf (m : Nat) (B : List Byte) : (blocksOf m B).length = m := by
  induction m generalizing B with
  | zero => rfl
  | succ m ih => simp [blocksOf, ih]

@[simp] theorem length_flatMap_blockBytes (bs : List Block) : (bs.flatMap Block.bytes).length = 16 * bs.length := by
  induction bs with
  | nil => rfl
  | cons b bs ih => simp [ih]; omega

/-- Cutting the bytes of blocks into blocks gives the blocks back. -/
@[simp] theorem blocksOf_flatMap (bs : List Block) : blocksOf bs.length (bs.flatMap Block.bytes) = bs := by
  induction bs with
  | nil => rfl
  | cons b bs ih =>
    have hd : (b.bytes ++ bs.flatMap Block.bytes).drop 16 = bs.flatMap Block.bytes :=
      List.drop_left' (Block.length_bytes b)
    simp [blocksOf, hd, ih]

/-- Joining the blocks of a sequence of whole blocks gives the sequence back. -/
theorem flatMap_blocksOf (m : Nat) (B : List Byte) (h : B.length = 16 * m) :
    (blocksOf m B).flatMap Block.bytes = B := by
  induction m generalizing B with
  | zero => simpa [blocksOf] using (List.eq_nil_of_length_eq_zero (by simpa using h)).symm
  | succ m ih =>
    have h16 : 16 ≤ B.length := by omega
    simp [blocksOf, Block.bytes_ofBytes h16, ih (B.drop 16) (by simp; omega)]

/-- Block `i` of a cut is the sixteen bytes from `16 * i` on. -/
theorem blocksOf_getElem? (m : Nat) (B : List Byte) (i : Nat) (h : i < m) :
    (blocksOf m B)[i]? = some (Block.ofBytes (B.drop (16 * i))) := by
  induction m generalizing B i with
  | zero => omega
  | succ m ih =>
    cases i with
    | zero => simp [blocksOf]
    | succ i =>
      have he : 16 + 16 * i = 16 * (i + 1) := by omega
      simp [blocksOf, ih (B.drop 16) i (by omega), List.drop_drop, he]

theorem length_pkcs7Pad (B : List Byte) : (pkcs7Pad B).length = 16 * (B.length / 16 + 1) := by
  simp only [pkcs7Pad, List.length_append, List.length_replicate]; omega

end Sys2Proof.Machine
end

