-- ==== Sys2Proof/Laws/Exec.lean ====
section
/-!
SUPPORT. What the meaning of each operation answers: with its operands written, one completion; and, once for all
operations, what a next state of `exec` is.
-/

namespace Sys2Proof.Machine

/-! Each operation with its operands written. -/

theorem exec_csumAdd (s : State) : exec .csumAdd s = .next (s.complete (.bytes [csumAdd s.input])) := rfl

theorem exec_csumXor (s : State) : exec .csumXor s = .next (s.complete (.bytes [csumXor s.input])) := rfl

theorem exec_aesEnc {s : State} {key iv : Block} (hk : s.opnd.key = some key) (hv : s.opnd.iv = some iv) :
    exec .aesEnc s = .next (s.complete (aesEncEnding Config.params key iv s.input)) := by
  simp [exec, execAesEnc, hk, hv]

theorem exec_aesDec {s : State} {key iv : Block} (hk : s.opnd.key = some key) (hv : s.opnd.iv = some iv) :
    exec .aesDec s = .next (s.complete (aesDecEnding key iv s.input)) := by
  simp [exec, execAesDec, hk, hv]

theorem exec_wdBuild {s : State} {sync : Byte} {feature cmdid : U16} (hs : s.opnd.sync = some sync)
    (hf : s.opnd.feature = some feature) (hc : s.opnd.cmdid = some cmdid) :
    exec .wdBuild s = .next (s.complete (wiredBuildEnding Config.params sync feature cmdid s.input)) := by
  simp [exec, execWdBuild, hs, hf, hc]

theorem exec_wdParse (s : State) : exec .wdParse s = .next (s.complete (wiredParseEnding Config.params s.input)) := rfl

theorem exec_wdResp {s : State} {cmdid : U16} {seq result : Byte} (hc : s.opnd.cmdid = some cmdid)
    (hs : s.opnd.seq = some seq) (hr : s.opnd.result = some result) :
    exec .wdResp s = .next (s.complete (wiredBuildEnding Config.params Config.params.syncP2H Config.params.featureReply
      cmdid ([seq, result] ++ s.input))) := by
  simp [exec, execWdResp, hs, hr, hc]

theorem exec_wlBuild {s : State} {cmdid : U16} {crypto seq : Byte} (hc : s.opnd.cmdid = some cmdid)
    (ht : s.opnd.crypto = some crypto) (hs : s.opnd.seq = some seq) :
    exec .wlBuild s = .next (s.complete (wirelessBuildEnding Config.params cmdid crypto seq s.input)) := by
  simp [exec, execWlBuild, hs, ht, hc]

theorem exec_wlParse (s : State) :
    exec .wlParse s = .next (s.complete (wirelessParseEnding Config.params s.input)) := rfl

/-- Every next state of `exec` is one completion of the state it was asked about (R184). -/
theorem exec_next {i : Instr} {s t : State} (h : exec i s = .next t) : ∃ E, t = s.complete E := by
  cases i with
  | csumAdd => cases h; exact ⟨_, rfl⟩
  | csumXor => cases h; exact ⟨_, rfl⟩
  | wdParse => cases h; exact ⟨_, rfl⟩
  | wlParse => cases h; exact ⟨_, rfl⟩
  | aesEnc =>
    obtain ⟨k, -, h⟩ := needOperand_next h
    obtain ⟨v, -, h⟩ := needOperand_next h
    cases h; exact ⟨_, rfl⟩
  | aesDec =>
    obtain ⟨k, -, h⟩ := needOperand_next h
    obtain ⟨v, -, h⟩ := needOperand_next h
    cases h; exact ⟨_, rfl⟩
  | wdBuild =>
    obtain ⟨a, -, h⟩ := needOperand_next h
    obtain ⟨b, -, h⟩ := needOperand_next h
    obtain ⟨c, -, h⟩ := needOperand_next h
    cases h; exact ⟨_, rfl⟩
  | wdResp =>
    obtain ⟨a, -, h⟩ := needOperand_next h
    obtain ⟨b, -, h⟩ := needOperand_next h
    obtain ⟨c, -, h⟩ := needOperand_next h
    cases h; exact ⟨_, rfl⟩
  | wlBuild =>
    obtain ⟨a, -, h⟩ := needOperand_next h
    obtain ⟨b, -, h⟩ := needOperand_next h
    obtain ⟨c, -, h⟩ := needOperand_next h
    cases h; exact ⟨_, rfl⟩

/-! The checks of the endings, one lemma per outcome. -/

theorem aesEncEnding_of_fits {P : Params} {key iv : Block} {B : List Byte}
    (h : 16 * (B.length / 16 + 1) ≤ P.bufCap) : aesEncEnding P key iv B = .bytes (aesCbcEnc B key iv) := by
  simp [aesEncEnding, h]

theorem aesEncEnding_of_overflow {P : Params} {key iv : Block} {B : List Byte}
    (h : P.bufCap < 16 * (B.length / 16 + 1)) : aesEncEnding P key iv B = .failure .bufOverflow := by
  simp [aesEncEnding]; omega

theorem aesDecEnding_of_whole {key iv : Block} {C : List Byte} (h : C.length % 16 = 0) :
    aesDecEnding key iv C = .bytes (unpadSoft (aesCbcUnchain C key iv)) := by
  simp [aesDecEnding, aesCbcDec, h]

theorem aesDecEnding_of_partial {key iv : Block} {C : List Byte} (h : C.length % 16 ≠ 0) :
    aesDecEnding key iv C = .failure .badCipherLen := by
  simp [aesDecEnding, aesCbcDec, h]

theorem wiredBuildEnding_of_fits {P : Params} {sync : Byte} {feature cmdid : U16} {B : List Byte}
    (h1 : B.length ≤ 65535) (h2 : 11 + B.length ≤ P.bufCap) :
    wiredBuildEnding P sync feature cmdid B = .bytes (wiredFrame P sync feature cmdid B) := by
  have h3 : ¬ 65535 < B.length := by omega
  simp [wiredBuildEnding, h3, Config.wdOverhead, h2]

theorem wiredBuildEnding_of_range {P : Params} {sync : Byte} {feature cmdid : U16} {B : List Byte}
    (h : 65535 < B.length) : wiredBuildEnding P sync feature cmdid B = .failure .fieldRange := by
  simp [wiredBuildEnding, h]

theorem wiredBuildEnding_of_overflow {P : Params} {sync : Byte} {feature cmdid : U16} {B : List Byte}
    (h1 : B.length ≤ 65535) (h2 : P.bufCap < 11 + B.length) :
    wiredBuildEnding P sync feature cmdid B = .failure .bufOverflow := by
  have h3 : ¬ 65535 < B.length := by omega
  have h4 : ¬ 11 + B.length ≤ P.bufCap := by omega
  simp [wiredBuildEnding, h3, Config.wdOverhead, h4]

/-! Lengths of the built frames (R60, R61). -/

@[simp] theorem length_wiredFrame (P : Params) (sync : Byte) (feature cmdid : U16) (B : List Byte) :
    (wiredFrame P sync feature cmdid B).length = 11 + B.length := by
  simp [wiredFrame, wiredBody]; omega

@[simp] theorem length_wirelessFrame (P : Params) (cmdid : U16) (B : List Byte) (crypto seq : Byte) :
    (wirelessFrame P cmdid B crypto seq).length = 10 + B.length := by
  simp [wirelessFrame, wirelessPrefix]; omega

end Sys2Proof.Machine
end

