-- ==== Sys2Proof/Laws/Host.lean ====
section
/-!
SUPPORT. What a turn can do: one inversion lemma for the host's actions, one for the engine's turn and one for the
step, which later proofs cite instead of unfolding them (spec 45_host_interface.md R180 to R186).
-/

namespace Sys2Proof.Machine

theorem whenNotBusy_of_busy {s : State} {k : Host.Outcome State Fault Refusal} (h : s.phase = .busy) :
    whenNotBusy s k = .refused .accessWhileBusy := by simp [whenNotBusy, h]

theorem whenNotBusy_of_ne {s : State} {k : Host.Outcome State Fault Refusal} (h : s.phase ≠ .busy) :
    whenNotBusy s k = k := by
  unfold whenNotBusy
  split
  · exact absurd ‹_› h
  · rfl
  · rfl

theorem whenNotBusy_next {s t : State} {k : Host.Outcome State Fault Refusal} (h : whenNotBusy s k = .next t) :
    s.phase ≠ .busy ∧ k = .next t := by
  by_cases hb : s.phase = .busy
  · simp [whenNotBusy_of_busy hb] at h
  · exact ⟨hb, by rwa [whenNotBusy_of_ne hb] at h⟩

/-- Every next state of a host action, action by action. -/
theorem hostAct_next {a : HostAction} {s t : State} (h : hostAct a s = .next t) :
    (∃ w, a = .writeReg w ∧ s.phase ≠ .busy ∧ t = { s with opnd := s.opnd.set w }) ∨
    (∃ B, a = .loadIbuf B ∧ s.phase ≠ .busy ∧ B.length ≤ Config.params.bufCap ∧ t = { s with ibuf := Memory.load B }) ∨
    (∃ c, a = .start c ∧ s.phase ≠ .busy ∧ (∀ i, decode c = .ok i → s.opnd.ready i) ∧ t = s.started c) ∨
    (a = .readStatus ∧ t = s.reply .status (.half s.status)) ∨
    (∃ r v, a = .readReg r ∧ s.phase ≠ .busy ∧ s.readable r = some v ∧ t = s.reply r.reg v) ∨
    (∃ r v, a = .readResult r ∧ s.phase = .done ∧ s.resultAt r = some v ∧ t = s.reply r.reg v) ∨
    (a = .reset ∧ t = s.resetEngine) := by
  cases a with
  | writeReg w =>
    obtain ⟨hb, h⟩ := whenNotBusy_next h
    cases h; exact .inl ⟨w, rfl, hb, rfl⟩
  | loadIbuf B =>
    obtain ⟨hb, h⟩ := whenNotBusy_next h
    split at h
    · cases h; exact .inr (.inl ⟨B, rfl, hb, (Params.fits_iff ..).mp ‹_›, rfl⟩)
    · cases h
  | start c =>
    obtain ⟨hb, h⟩ := whenNotBusy_next h
    refine .inr (.inr (.inl ⟨c, rfl, hb, ?_⟩))
    split at h
    · rename_i i hi
      split at h
      · cases h
      · cases h
        refine ⟨fun j hj => ?_, rfl⟩
        rw [hi] at hj; cases hj
        exact OperandRegs.missing_eq_none.mp ‹_›
    · rename_i e he
      cases h
      exact ⟨fun j hj => (by rw [he] at hj; cases hj), rfl⟩
  | readStatus => cases h; exact .inr (.inr (.inr (.inl ⟨rfl, rfl⟩)))
  | readReg r =>
    obtain ⟨hb, h⟩ := whenNotBusy_next h
    split at h
    · cases h; exact .inr (.inr (.inr (.inr (.inl ⟨r, _, rfl, hb, ‹_›, rfl⟩))))
    · cases h
  | readResult r =>
    simp only [hostAct, hostReadResult] at h
    split at h
    · cases h
    · cases h
    · split at h
      · cases h; exact .inr (.inr (.inr (.inr (.inr (.inl ⟨r, _, rfl, ‹_›, ‹_›, rfl⟩)))))
      · cases h
  | reset => cases h; exact .inr (.inr (.inr (.inr (.inr (.inr ⟨rfl, rfl⟩)))))

/-- Every next state of the engine's turn: the meaning of the operation `OP` selects, or `BadOp`. -/
theorem engineStep_next {s t : State} (h : engineStep s = .next t) :
    s.phase = .busy ∧ ∃ c, s.op = some c ∧
      ((∃ i, decode c = .ok i ∧ exec i s = .next t) ∨ ((∀ i, decode c ≠ .ok i) ∧ t = s.failWith .badOp)) := by
  unfold engineStep at h
  split at h
  · cases h
  · cases h
  · rename_i hp
    split at h
    · rename_i c hc
      refine ⟨hp, c, hc, ?_⟩
      unfold runCommand at h
      split at h
      · exact .inl ⟨_, ‹_›, h⟩
      · rename_i e he
        cases h
        exact .inr ⟨fun i hi => (by rw [he] at hi; cases hi), rfl⟩
    · cases h

/-- The engine's turn in phase `BUSY` with a command latched. -/
theorem engineStep_of_busy {s : State} {c : Byte} (hp : s.phase = .busy) (hc : s.op = some c) :
    engineStep s = runCommand c s := by simp [engineStep, hp, hc]

/-- Every next state of a step, by the agent that moved. -/
theorem step_next {s t : State} (h : step s = .next t) :
    (∃ a rest, s.script = .host a :: rest ∧ hostAct a { s with script := rest } = .next t) ∨
    (∃ rest, s.script = .engine :: rest ∧ engineStep { s with script := rest } = .next t) ∨
    (s.script = [] ∧ engineStep s = .next t) := by
  unfold step nextTurn at h
  split at h
  · exact .inl ⟨_, _, ‹_›, h⟩
  · exact .inr (.inl ⟨_, ‹_›, h⟩)
  · split at h
    · exact .inr (.inr ⟨‹_›, h⟩)
    · cases h
    · cases h

theorem step_of_host {s : State} {a : HostAction} {rest : List Turn} (h : s.script = .host a :: rest) :
    step s = hostAct a { s with script := rest } := by simp [step, nextTurn, h]

theorem step_of_engine {s : State} {rest : List Turn} (h : s.script = .engine :: rest) :
    step s = engineStep { s with script := rest } := by simp [step, nextTurn, h]

/-- With nothing left in the script the engine moves while an operation is owed its step. -/
theorem step_of_nil {s : State} (h : s.script = []) (hp : s.phase = .busy) : step s = engineStep s := by
  simp [step, nextTurn, h, hp]

end Sys2Proof.Machine
end

