-- ==== Sys2Proof/Laws/PerInstr.lean ====
section
/-!
SUPPORT. The statement made of every operation as syntax, and its proof for each constructor.
-/

/-- The operation is well formed, its command byte is read back as the operation, and no other byte is (R70). -/
def Sys2Proof.Laws.CommandCode.Statement (i : Sys2Proof.Instr) : Prop :=
  i.wf = true ∧ Sys2Proof.decode (Sys2Proof.encode i) = .ok i ∧
    ∀ c : Sys2Proof.Byte, c ≠ Sys2Proof.encode i → Sys2Proof.decode c ≠ .ok i

namespace Sys2Proof.Laws

/-- A byte that decodes is the command byte of what it decodes to. -/
theorem encode_of_decode {c : Byte} {i : Instr} (h : decode c = .ok i) : encode i = c := by
  have all : ∀ c : Byte, ((decode c).toOption.all fun i => encode i == c) = true := by decide +kernel
  simpa [h, Except.toOption] using all c

theorem decode_ne {i : Instr} (c : Byte) (hc : c ≠ encode i) : decode c ≠ .ok i :=
  fun h => hc (encode_of_decode h).symm

theorem CommandCode.csumAdd : CommandCode.Statement .csumAdd := ⟨rfl, rfl, decode_ne⟩
theorem CommandCode.csumXor : CommandCode.Statement .csumXor := ⟨rfl, rfl, decode_ne⟩
theorem CommandCode.aesEnc : CommandCode.Statement .aesEnc := ⟨rfl, rfl, decode_ne⟩
theorem CommandCode.aesDec : CommandCode.Statement .aesDec := ⟨rfl, rfl, decode_ne⟩
theorem CommandCode.wdBuild : CommandCode.Statement .wdBuild := ⟨rfl, rfl, decode_ne⟩
theorem CommandCode.wdParse : CommandCode.Statement .wdParse := ⟨rfl, rfl, decode_ne⟩
theorem CommandCode.wdResp : CommandCode.Statement .wdResp := ⟨rfl, rfl, decode_ne⟩
theorem CommandCode.wlBuild : CommandCode.Statement .wlBuild := ⟨rfl, rfl, decode_ne⟩
theorem CommandCode.wlParse : CommandCode.Statement .wlParse := ⟨rfl, rfl, decode_ne⟩

end Sys2Proof.Laws
end

