-- ==== Sys2Proof/Tests/Slice0.lean ====
section
/-!
SUPPORT. Tests of the model against values the spec prints (95_test_vectors.md; its row is named in each docstring),
the refusals of the well-formedness checks, and for every statement with hypotheses a concrete witness of them.
-/

namespace Sys2Proof.Tests

open Sys2Proof Sys2Proof.Machine

/-! ## Helpers -/

/-- The illustrative parameter set V of 95_test_vectors.md section 2. -/
def paramsV : Params where
  head := 0xA5
  syncH2P := 0x01
  syncGap := 0
  term0 := 0x0D
  term1 := 0x0A
  featureReply := 0x0002
  wlHdr := 0x55AA
  wlFtr := 0xBB66
  kDefault := ⟨0x00, 0x01, 0x02, 0x03, 0x04, 0x05, 0x06, 0x07, 0x08, 0x09, 0x0A, 0x0B, 0x0C, 0x0D, 0x0E, 0x0F⟩
  wdMinIsTen := false
  bufSpare := ⟨65274, by decide⟩

/-- Set V with the least capacity R4 allows, 272 bytes. -/
def paramsSmall : Params := { paramsV with bufSpare := ⟨0, by decide⟩ }

/-- The key `2B 7E .. 3C` of V-BLK-3 and V-AES-6. -/
def key3C : Block :=
  ⟨0x2B, 0x7E, 0x15, 0x16, 0x28, 0xAE, 0xD2, 0xA6, 0xAB, 0xF7, 0x15, 0x88, 0x09, 0xCF, 0x4F, 0x3C⟩

/-- Every operand register written, with `CRYPTO` as given. -/
def operands (crypto : Byte) : OperandRegs :=
  ⟨some 0x01, some 0x0001, some 0x0209, some crypto, some 0x07, some 0x00, some paramsV.kDefault, some Block.zero⟩

/-- The state after reset with every operand register written and `B` in `IBUF`. -/
def loaded (crypto : Byte) (B : List Byte) : State := { State.reset.withInput B with opnd := operands crypto }

/-- `OBUF` of a next state. -/
def outputOf : Host.Outcome State Fault Refusal → Option (List Byte)
  | .next t => t.output
  | .fault _ => none
  | .refused _ => none

/-- `STATUS` of a next state. -/
def statusOf : Host.Outcome State Fault Refusal → Option U16
  | .next t => some t.status
  | .fault _ => none
  | .refused _ => none

/-- The reason of a refusal. -/
def refusalOf : Host.Outcome State Fault Refusal → Option Refusal
  | .next _ => none
  | .fault _ => none
  | .refused r => some r

/-! ## WellFormed: the refusals -/

/-- R181: a load of one byte more than `BUFCAP` is no action; a load of `BUFCAP` bytes is. -/
theorem test_wf_refuses_long_load :
    (HostAction.loadIbuf (List.replicate 273 0)).wf paramsSmall = false ∧
    (HostAction.loadIbuf (List.replicate 272 0)).wf paramsSmall = true := by decide +kernel

theorem test_wf_refuses_turn_of_long_load :
    (Turn.host (.loadIbuf (List.replicate 273 0))).wf paramsSmall = false ∧ Turn.engine.wf paramsSmall = true := by
  decide +kernel

/-- R70: the command byte has no field beside the opcode, so the check of an operation has nothing to refuse; what has
no meaning as an operation is a byte, and the decoder refuses it. -/
theorem test_wf_every_operation :
    ([.csumAdd, .csumXor, .aesEnc, .aesDec, .wdBuild, .wdParse, .wdResp, .wlBuild, .wlParse] : List Instr).all
      Instr.wf = true := by decide

/-! ## Decode: the command bytes of R70, bit 7 first -/

theorem test_decode_csumAdd : decode 0b00000001 = .ok .csumAdd := by rfl
theorem test_decode_csumXor : decode 0b00000010 = .ok .csumXor := by rfl
theorem test_decode_aesEnc : decode 0b00010000 = .ok .aesEnc := by rfl
theorem test_decode_aesDec : decode 0b00010001 = .ok .aesDec := by rfl
theorem test_decode_wdBuild : decode 0b00100000 = .ok .wdBuild := by rfl
theorem test_decode_wdParse : decode 0b00100001 = .ok .wdParse := by rfl
theorem test_decode_wdResp : decode 0b00100010 = .ok .wdResp := by rfl
theorem test_decode_wlBuild : decode 0b00110000 = .ok .wlBuild := by rfl
theorem test_decode_wlParse : decode 0b00110001 = .ok .wlParse := by rfl

/-- V-H-11, V-H-12: bytes of the reserved ranges of R72 select nothing. -/
theorem test_decode_rejects_unassigned :
    ([0x00, 0x03, 0x0F, 0x12, 0x1F, 0x23, 0x2F, 0x32, 0x80, 0xFF] : List Byte).all
      (fun c => match decode c with
        | .error e => decide (e = .unassignedCode c)
        | .ok _ => false) = true := by decide

theorem test_decode_table_word :
    decodeTableWord 8 0x22 = some .wdResp ∧ decodeTableWord 8 0x31 = some .wlParse ∧ decodeTableWord 8 0x55 = none := by
  decide

/-! ## Single steps -/

/-- The first step of each started operation completes it. -/
theorem test_step_runs_every_code :
    ([0x01, 0x02, 0x10, 0x11, 0x20, 0x22, 0x30] : List Nat).map (fun w => statusOf (step (State.reset.withFetchWord 8 w))) =
      List.replicate 7 (some 0x0001) := by decide +kernel

/-- V-H-9, V-H-10, V-H-11: on the empty `IBUF` the parses report `TooShort` and `WlNull`; the code 0 is `BadOp`. -/
theorem test_step_errors_on_empty :
    ([0x21, 0x31, 0x00] : List Nat).map (fun w => statusOf (step (State.reset.withFetchWord 8 w))) =
      [some 0x0101, some 0x0501, some 0x0901] := by decide +kernel

/-! ## Operations: rows of 95_test_vectors.md section 3 -/

/-- V-CS-6A. -/
theorem test_csumAdd_wraps : outputOf (exec .csumAdd (loaded 0 [0x01, 0x02, 0x03])) = some [0xFA] := by decide +kernel

/-- V-CS-8A: a sum past 0x100. -/
theorem test_csumAdd_carry : outputOf (exec .csumAdd (loaded 0 [0xFF, 0xFF, 0xFF])) = some [0x03] := by decide +kernel

/-- V-CS-6X. -/
theorem test_csumXor_cancels : outputOf (exec .csumXor (loaded 0 [0x01, 0x02, 0x03])) = some [0x00] := by decide +kernel

/-- V-CS-10X. -/
theorem test_csumXor_header :
    outputOf (exec .csumXor (loaded 0 [0xA5, 0x01, 0x00, 0x01, 0x02, 0x09, 0x00, 0x00])) = some [0xAE] := by
  decide +kernel

/-- V-BLK-1. -/
theorem test_aesEncBlock :
    aesEncBlock paramsV.kDefault
      ⟨0x00, 0x11, 0x22, 0x33, 0x44, 0x55, 0x66, 0x77, 0x88, 0x99, 0xAA, 0xBB, 0xCC, 0xDD, 0xEE, 0xFF⟩ =
      ⟨0x69, 0xC4, 0xE0, 0xD8, 0x6A, 0x7B, 0x04, 0x30, 0xD8, 0xCD, 0xB7, 0x80, 0x70, 0xB4, 0xC5, 0x5A⟩ := by
  decide +kernel

/-- V-BLK-5. -/
theorem test_aesDecBlock :
    aesDecBlock Block.zero Block.zero =
      ⟨0x14, 0x0F, 0x0F, 0x10, 0x11, 0xB5, 0x22, 0x3D, 0x79, 0x58, 0x77, 0x17, 0xFF, 0xD9, 0xEC, 0x3A⟩ := by
  decide +kernel

/-- Round key 10 of V-BLK-3's key. -/
theorem test_roundKey_ten :
    roundKey (keyExpansion key3C) 10 =
      ⟨0xD0, 0x14, 0xF9, 0xA8, 0xC9, 0xEE, 0x25, 0x89, 0xE1, 0x3F, 0x0C, 0xC8, 0xB6, 0x63, 0x0C, 0xA6⟩ := by
  decide +kernel

/-- V-AES-1: the empty input is one block of padding. -/
theorem test_aesEnc_empty :
    outputOf (exec .aesEnc (loaded 0 [])) =
      some [0x95, 0x4F, 0x64, 0xF2, 0xE4, 0xE8, 0x6E, 0x9E, 0xEE, 0x82, 0xD2, 0x02, 0x16, 0x68, 0x48, 0x99] := by
  decide +kernel

/-- V-AES-6: two chained blocks under a nonzero iv. -/
theorem test_aesEnc_chains :
    aesCbcEnc
      [0x6B, 0xC1, 0xBE, 0xE2, 0x2E, 0x40, 0x9F, 0x96, 0xE9, 0x3D, 0x7E, 0x11, 0x73, 0x93, 0x17, 0x2A]
      key3C paramsV.kDefault =
      [0x76, 0x49, 0xAB, 0xAC, 0x81, 0x19, 0xB2, 0x46, 0xCE, 0xE9, 0x8E, 0x9B, 0x12, 0xE9, 0x19, 0x7D,
        0x89, 0x64, 0xE0, 0xB1, 0x49, 0xC1, 0x0B, 0x7B, 0x68, 0x2E, 0x6E, 0x39, 0xAA, 0xEB, 0x73, 0x1C] := by
  decide +kernel

/-- V-AES-S7: a pad of 17 bytes in a message of 32, longer than a block and stripped all the same. -/
theorem test_aesDec_long_pad :
    outputOf (exec .aesDec (loaded 0
      [0x44, 0x93, 0xAD, 0xA3, 0x30, 0x6C, 0xE1, 0x10, 0xF4, 0x81, 0x57, 0xD8, 0x66, 0x89, 0x59, 0xD7,
        0xAA, 0xF7, 0xC9, 0xFA, 0x94, 0x41, 0xA4, 0x87, 0x0C, 0xFE, 0x80, 0x1C, 0x44, 0x69, 0xAC, 0x77])) =
      some (List.replicate 15 0x00) := by decide +kernel

/-- V-AES-E1 and V-AES-E3: 15 bytes are `BadCipherLen`, no bytes are none. -/
theorem test_aesDec_lengths :
    statusOf (exec .aesDec (loaded 0 (List.replicate 15 0))) = some 0x0601 ∧
    outputOf (exec .aesDec (loaded 0 [])) = some [] := by decide +kernel

/-- V-AES-S3: the last byte claims two pad bytes, which are not there: returned whole. -/
theorem test_unpad_malformed :
    unpadSoft (List.replicate 13 0x00 ++ [0x03, 0x03, 0x02]) = List.replicate 13 0x00 ++ [0x03, 0x03, 0x02] := by
  decide +kernel

/-- V-WD-3: `HEAD` and `TERM` inside the payload are not escaped; a sync byte and fields with high bits. -/
theorem test_wdBuild_frame :
    wiredBuildEnding paramsV 0x02 0xFF02 0xFFFF [0xA5, 0x0D, 0x0A] =
      .bytes [0xA5, 0x02, 0xFF, 0x02, 0xFF, 0xFF, 0x00, 0x03, 0xA5, 0x0D, 0x0A, 0x9B, 0x0D, 0x0A] := by decide +kernel

/-- V-WD-9: 11 + 262 bytes do not fit 272. -/
theorem test_wdBuild_overflow :
    wiredBuildEnding paramsSmall 0x01 0x0001 0x0209 (List.replicate 262 0) = .failure .bufOverflow := by decide +kernel

/-- V-WD-10. -/
theorem test_wdResp_frame :
    wiredBuildEnding paramsV paramsV.syncP2H paramsV.featureReply 0x0209 ([0x07, 0x00] ++ [0x01, 0x02]) =
      .bytes [0xA5, 0x02, 0x00, 0x02, 0x02, 0x09, 0x00, 0x04, 0x07, 0x00, 0x01, 0x02, 0x3E, 0x0D, 0x0A] := by
  decide +kernel

/-- V-WP-20: the sync byte changed to the other direction: parsed, `CSUM_OK = 0`, `DIR = 2`. -/
theorem test_wdParse_wrong_checksum :
    wiredParseEnding paramsV
      [0xA5, 0x02, 0x00, 0x01, 0x12, 0x34, 0x00, 0x04, 0xDE, 0xAD, 0xBE, 0xEF, 0xD7, 0x0D, 0x0A] =
      .success [0xDE, 0xAD, 0xBE, 0xEF] ⟨some 0x02, some 0x0001, some 0x1234, none, none, some 15⟩ false
        .peripheralToHost := by decide +kernel

/-- V-WP-16 and V-WP-11: swapped terminator bytes; head and length both wrong, the head reported. -/
theorem test_wdParse_first_failing_check :
    wiredParseEnding paramsV
      [0xA5, 0x01, 0x00, 0x01, 0x12, 0x34, 0x00, 0x04, 0xDE, 0xAD, 0xBE, 0xEF, 0xD7, 0x0A, 0x0D] =
      .failure .badTerminator ∧
    wiredParseEnding paramsV
      [0x5A, 0x01, 0x00, 0x01, 0x12, 0x34, 0x00, 0x09, 0xDE, 0xAD, 0xBE, 0xEF, 0xD7, 0x0D, 0x0A] =
      .failure .badHead := by decide +kernel

/-- V-WL-3: an encrypted payload. -/
theorem test_wlBuild_encrypted :
    wirelessBuildEnding paramsV 0x0209 0x02 0x07 [0x01, 0x02, 0x03] =
      .bytes [0xAA, 0x55, 0x1A, 0x02, 0x07, 0x09, 0x02, 0xD5, 0xE2, 0xFF, 0x66, 0x6F, 0xDC, 0x11, 0x32, 0x6E, 0x47,
        0x72, 0x93, 0x58, 0xFA, 0xE8, 0x40, 0x17, 0x66, 0xBB] := by decide +kernel

/-- V-WL-9 and V-WL-4: 246 bytes do not fit; an empty payload is not encrypted. -/
theorem test_wlBuild_lengths :
    wirelessBuildEnding paramsV 0x0001 0x00 0x00 (List.replicate 246 0) = .failure .fieldRange ∧
    wirelessBuildEnding paramsV 0x0209 0x02 0x07 [] =
      .bytes [0xAA, 0x55, 0x0A, 0x02, 0x07, 0x09, 0x02, 0xFB, 0x66, 0xBB] := by decide +kernel

/-- V-LP-3: decrypted and unpadded. -/
theorem test_wlParse_decrypts :
    wirelessParseEnding paramsV
      [0xAA, 0x55, 0x1A, 0x02, 0x07, 0x09, 0x02, 0xD5, 0xE2, 0xFF, 0x66, 0x6F, 0xDC, 0x11, 0x32, 0x6E, 0x47,
        0x72, 0x93, 0x58, 0xFA, 0xE8, 0x40, 0x17, 0x66, 0xBB] =
      .success [0x01, 0x02, 0x03] ⟨none, none, some 0x0209, some 0x02, some 0x07, some 26⟩ false .none := by
  decide +kernel

/-- V-LP-6 and V-LP-16: a payload that cannot be decrypted is returned raw; a changed payload byte is fatal. -/
theorem test_wlParse_fallback_and_null :
    wirelessParseEnding paramsV [0xAA, 0x55, 0x0D, 0x02, 0x07, 0x09, 0x02, 0x01, 0x02, 0x03, 0xFC, 0x66, 0xBB] =
      .success [0x01, 0x02, 0x03] ⟨none, none, some 0x0209, some 0x02, some 0x07, some 13⟩ false .none ∧
    wirelessParseEnding paramsV [0xAA, 0x55, 0x0D, 0x00, 0x07, 0x09, 0x02, 0x01, 0x12, 0x03, 0xFE, 0x66, 0xBB] =
      .failure .wlNull := by decide +kernel

/-! ## Host actions: rows of section 3.5 -/

/-- V-H-6, V-H-7, V-H-8: a start with unwritten operands is refused; the first of R71's list is named. -/
theorem test_start_refused :
    ([0x20, 0x10, 0x30] : List Byte).map (fun c => refusalOf (step (State.reset.withTurn (.host (.start c))))) =
      [some (.operandNoValue .sync), some (.operandNoValue .key), some (.operandNoValue .cmdid)] := by decide +kernel

/-- V-H-3, V-H-4: reads of `NOVALUE` and of a result in `IDLE`. -/
theorem test_reads_refused :
    refusalOf (step (State.reset.withTurn (.host (.readReg (.operand .sync))))) = some (.readNoValue .sync) ∧
    refusalOf (step (State.reset.withTurn (.host (.readResult .obuf)))) = some .resultWhileIdle := by decide +kernel

/-- V-H-13, V-H-14: in `BUSY` the status reads 0x0002 and a write is refused. -/
theorem test_busy :
    (State.reset.started 0x01).status = 0x0002 ∧
    refusalOf (step ((State.reset.started 0x01).withTurn (.host (.writeReg (.cmdid 1))))) = some .accessWhileBusy := by
  decide +kernel

/-! ## Witnesses: states and operands that meet the hypotheses of each statement

One theorem per statement, named after it, with one part per clause. -/

/-- A built wired frame is well formed, whatever the parameters. -/
theorem wired_witness (P : Params) : WiredWellFormed P (wiredFrame P 0 0 0 []) := ⟨by simp, rfl, rfl, rfl⟩

/-- A built wireless frame is accepted, whatever the parameters. -/
theorem wireless_witness (P : Params) : WirelessAccepted P (wirelessFrame P 0 [] 0 0) := by
  refine ⟨by simp, ?_, rfl, ?_, rfl⟩
  · rw [← rdLE16_toNat]; exact congrArg BitVec.toNat (highByte_append_lowByte P.wlHdr)
  · show (byteAt (wirelessFrame P 0 [] 0 0) 8).toNat + 256 * (byteAt (wirelessFrame P 0 [] 0 0) (8 + 1)).toNat = _
    rw [← rdLE16_toNat]; exact congrArg BitVec.toNat (highByte_append_lowByte P.wlFtr)

/-- The invariant holds right after the start of an operation that reads no operand register. -/
theorem inv_started : (State.reset.started 0x01).Inv := by
  refine ⟨⟨rfl, Nat.zero_le _, fun m h => by cases h⟩, ⟨⟨rfl, rfl, rfl, rfl⟩, rfl, 0x01, rfl, fun i h => ?_⟩⟩
  cases h
  intro r hr; cases hr

theorem input_loaded (crypto : Byte) (B : List Byte) : (loaded crypto B).input = B := Memory.bytes_load B

theorem witness_UnassignedCodeEndsInBadOp :
    (0x55 : Byte) ∉ ([0x01, 0x02, 0x10, 0x11, 0x20, 0x21, 0x22, 0x30, 0x31] : List Byte) ∧
    State.reset.phase ≠ .busy ∧ (State.reset.started 0x55).phase = .busy ∧ (State.reset.started 0x55).op = some 0x55 := by
  decide

theorem witness_StepRunsTheStartedOperation :
    (State.reset.started 0x31).phase = .busy ∧ (State.reset.started 0x31).op = some 0x31 ∧
    decode 0x31 = .ok .wlParse ∧ Instr.wlParse.wf = true ∧ (State.reset.started 0x31).script = [] :=
  ⟨rfl, rfl, rfl, rfl, rfl⟩

theorem witness_NoEngineStepOutsideBusy : State.reset.phase ≠ .busy ∧ State.reset.endedWell :=
  ⟨by decide, by decide, rfl⟩

theorem witness_ChecksumsOfTheEmptyInputAreZero : State.reset.input = [] := rfl

theorem witness_AdditiveCheckLaw :
    WiredWellFormed paramsV (wiredFrame paramsV 0 0 0 []) ∧ (0 < [(0x01 : Byte)].length ∧ (0x02 : Byte) ≠ byteAt [0x01] 0) ∧
    (0 < [(0xFF : Byte), 0x00].length ∧ 1 < [(0xFF : Byte), 0x00].length ∧ 0 ≠ 1) :=
  ⟨wired_witness paramsV, by decide, by decide⟩

theorem witness_XorCheckLaw :
    (0 < [(0x01 : Byte)].length ∧ (0x02 : Byte) ≠ byteAt [0x01] 0) ∧
    (0 < [(0xFF : Byte), 0x00].length ∧ 1 < [(0xFF : Byte), 0x00].length ∧ 0 ≠ 1) := by decide

theorem witness_ChecksumsAreIncremental : [(0x01 : Byte), 0x02].Perm [0x02, 0x01] := by decide

theorem witness_SboxIsTheAffineImageOfTheInverse : (0 : Byte) = 0 ∧ (0xFF : Byte) ≠ 0 ∧ 0 < 8 ∧ 7 < 8 := by decide

theorem witness_KeyExpansionFollowsTheRecurrence : (4 ≤ 4 ∧ 4 < 44) ∧ (4 ≤ 43 ∧ 43 < 44) := by decide

/-- Also for `WD_BUILD`'s, `WD_RESP`'s and `WL_BUILD`'s operands: every register of `loaded` is written. -/
theorem witness_operands (crypto : Byte) (B : List Byte) :
    (loaded crypto B).opnd.sync = some 0x01 ∧ (loaded crypto B).opnd.feature = some 0x0001 ∧
    (loaded crypto B).opnd.cmdid = some 0x0209 ∧ (loaded crypto B).opnd.crypto = some crypto ∧
    (loaded crypto B).opnd.seq = some 0x07 ∧ (loaded crypto B).opnd.result = some 0x00 ∧
    (loaded crypto B).opnd.key = some paramsV.kDefault ∧ (loaded crypto B).opnd.iv = some Block.zero :=
  ⟨rfl, rfl, rfl, rfl, rfl, rfl, rfl, rfl⟩

/-- The longest plaintext whose ciphertext surely fits: 271 bytes to 272. -/
theorem witness_AesEncChainsThePaddedInput :
    (loaded 0 (List.replicate 271 0)).opnd.key = some paramsV.kDefault ∧
    (loaded 0 (List.replicate 271 0)).opnd.iv = some Block.zero ∧
    16 * ((loaded 0 (List.replicate 271 0)).input.length / 16 + 1) ≤ Config.params.bufCap := by
  refine ⟨rfl, rfl, ?_⟩
  rw [input_loaded, List.length_replicate]
  exact Params.bufCap_ge _

/-- An input of `BUFCAP` bytes overflows; the empty input fits. -/
theorem witness_AesEncOverflowsOnlyPastTheBuffer :
    (loaded 0 (List.replicate Config.params.bufCap 0)).opnd.key = some paramsV.kDefault ∧
    (loaded 0 (List.replicate Config.params.bufCap 0)).opnd.iv = some Block.zero ∧
    Config.params.bufCap < 16 * ((loaded 0 (List.replicate Config.params.bufCap 0)).input.length / 16 + 1) ∧
    (loaded 0 []).opnd.key = some paramsV.kDefault ∧ (loaded 0 []).opnd.iv = some Block.zero ∧
    16 * ((loaded 0 []).input.length / 16 + 1) ≤ Config.params.bufCap := by
  refine ⟨rfl, rfl, ?_, rfl, rfl, Nat.le_trans (by decide) (Params.bufCap_ge _)⟩
  rw [input_loaded, List.length_replicate]
  omega

theorem witness_AesDecUnchainsAndUnpads :
    (loaded 0 (List.replicate 32 0)).opnd.key = some paramsV.kDefault ∧
    (loaded 0 (List.replicate 32 0)).opnd.iv = some Block.zero ∧ (loaded 0 (List.replicate 32 0)).input.length % 16 = 0 ∧
    1 < (loaded 0 (List.replicate 32 0)).input.length / 16 := by decide +kernel

theorem witness_AesDecRefusesPartialBlocks :
    (loaded 0 [0]).opnd.key = some paramsV.kDefault ∧ (loaded 0 [0]).opnd.iv = some Block.zero ∧
    (loaded 0 [0]).input.length % 16 ≠ 0 ∧
    (∃ t, exec .aesDec (loaded 0 [0]) = .next t ∧ t.flags.err = .badCipherLen) ∧ [(0 : Byte)].length % 16 ≠ 0 :=
  ⟨rfl, rfl, by decide, ⟨_, rfl, rfl⟩, by decide⟩

/-- A pad of 1 and of 255 bytes; and the empty message, which ends in no pad. -/
theorem witness_SoftUnpadStripsExactlyAWholePad :
    (1 ≤ 1 ∧ 1 ≤ 255) ∧ (1 ≤ 255 ∧ 255 ≤ 255) ∧
    ∀ (E : List Byte) (p : Nat), 1 ≤ p → p ≤ 255 → [] ≠ E ++ List.replicate p (BitVec.ofNat 8 p) := by
  refine ⟨by decide, by decide, fun E p h _ he => ?_⟩
  have := congrArg List.length he
  simp at this; omega

theorem witness_CbcRoundTrip :
    (loaded 0 []).opnd.key = some paramsV.kDefault ∧ (loaded 0 []).opnd.iv = some Block.zero ∧
    16 * ((loaded 0 []).input.length / 16 + 1) ≤ Config.params.bufCap :=
  ⟨rfl, rfl, Nat.le_trans (by decide) (Params.bufCap_ge _)⟩

theorem witness_CiphertextLengths :
    List.replicate 239 (0 : Byte) ≠ [] ∧ (wirelessBody paramsV (List.replicate 239 0) 0x02).length ≤ 245 := by
  decide +kernel

theorem witness_CbcErrorPropagation :
    (List.replicate 32 (0 : Byte)).length % 16 = 0 ∧ 16 * 1 + 16 ≤ (List.replicate 32 (0 : Byte)).length ∧ 15 < 16 ∧
    (1 : Byte) ≠ byteAt (List.replicate 32 0) (16 * 1 + 15) ∧ 31 < (List.replicate 32 (0 : Byte)).length ∧
    0 / 16 ≠ 1 := by decide

/-- The longest payload whose frame surely fits: 261 bytes to 272. -/
theorem witness_WdBuildWritesTheFrame :
    (loaded 0 (List.replicate 261 0)).opnd.sync = some 0x01 ∧ (loaded 0 (List.replicate 261 0)).opnd.feature = some 0x0001 ∧
    (loaded 0 (List.replicate 261 0)).opnd.cmdid = some 0x0209 ∧ (loaded 0 (List.replicate 261 0)).input.length ≤ 65535 ∧
    11 + (loaded 0 (List.replicate 261 0)).input.length ≤ Config.params.bufCap := by
  refine ⟨rfl, rfl, rfl, ?_, ?_⟩ <;> rw [input_loaded, List.length_replicate]
  · decide
  · exact Params.bufCap_ge _

/-- 65536 bytes are out of range under every record; 262 do not fit 272 and 261 do (V-WD-9). -/
theorem witness_WiredBuildsFailOnRangeThenRoom :
    (loaded 0 []).opnd.sync = some 0x01 ∧ (loaded 0 []).opnd.feature = some 0x0001 ∧
    (loaded 0 []).opnd.cmdid = some 0x0209 ∧ (loaded 0 []).opnd.seq = some 0x07 ∧ (loaded 0 []).opnd.result = some 0x00 ∧
    65535 < (List.replicate 65536 (0 : Byte)).length ∧
    (List.replicate 262 (0 : Byte)).length ≤ 65535 ∧ paramsSmall.bufCap < 11 + (List.replicate 262 (0 : Byte)).length ∧
    11 + (List.replicate 261 (0 : Byte)).length ≤ paramsSmall.bufCap := by
  refine ⟨rfl, rfl, rfl, rfl, rfl, ?_, ?_, ?_, ?_⟩ <;> rw [List.length_replicate] <;> decide

/-- Also for `WdRespIsTheExpandedBuild`. -/
theorem witness_WdRespWritesTheReplyFrame :
    (loaded 0 (List.replicate 259 0)).opnd.cmdid = some 0x0209 ∧ (loaded 0 (List.replicate 259 0)).opnd.seq = some 0x07 ∧
    (loaded 0 (List.replicate 259 0)).opnd.result = some 0x00 ∧
    (loaded 0 (List.replicate 259 0)).input.length + 2 ≤ 65535 ∧
    13 + (loaded 0 (List.replicate 259 0)).input.length ≤ Config.params.bufCap := by
  refine ⟨rfl, rfl, rfl, ?_, ?_⟩ <;> rw [input_loaded, List.length_replicate]
  · decide
  · exact Params.bufCap_ge _

theorem witness_WdRespIsTheExpandedBuild :
    (loaded 0 []).opnd.cmdid = some 0x0209 ∧ (loaded 0 []).opnd.seq = some 0x07 ∧
    (loaded 0 []).opnd.result = some 0x00 := ⟨rfl, rfl, rfl⟩

theorem witness_WdParseReturnsTheFields :
    WiredWellFormed Config.params (loaded 0 (wiredFrame Config.params 0 0 0 [])).input :=
  (input_loaded _ _).symm ▸ wired_witness _

/-- A buffer of 11 bytes: `HEAD`, then zeros but for its last five bytes as given. -/
def elevenBytes (h l0 l1 e0 e1 : Byte) : List Byte := [h, 0, 0, 0, 0, 0, l0, l1, 0, e0, e1]

theorem witness_WdParseReportsTheFirstFailingCheck :
    ([] : List Byte).length < Config.params.wdMin ∧
    (Config.params.wdMin ≤ (elevenBytes (Config.params.head + 1) 0 0 0 0).length ∧
      (elevenBytes (Config.params.head + 1) 0 0 0 0)[0]? ≠ some Config.params.head) ∧
    (Config.params.wdMin ≤ (elevenBytes Config.params.head 0 1 0 0).length ∧
      (elevenBytes Config.params.head 0 1 0 0)[0]? = some Config.params.head ∧
      11 + (256 * (byteAt (elevenBytes Config.params.head 0 1 0 0) 6).toNat +
        (byteAt (elevenBytes Config.params.head 0 1 0 0) 7).toNat) ≠ (elevenBytes Config.params.head 0 1 0 0).length) ∧
    (11 + (256 * (byteAt (elevenBytes Config.params.head 0 0 Config.params.term0 (Config.params.term1 + 1)) 6).toNat +
        (byteAt (elevenBytes Config.params.head 0 0 Config.params.term0 (Config.params.term1 + 1)) 7).toNat) =
        (elevenBytes Config.params.head 0 0 Config.params.term0 (Config.params.term1 + 1)).length ∧
      (elevenBytes Config.params.head 0 0 Config.params.term0 (Config.params.term1 + 1)).drop 9 ≠
        [Config.params.term0, Config.params.term1]) := by
  have hmin : Config.params.wdMin ≤ 11 := by rcases Params.wdMin_cases Config.params with h | h <;> omega
  have hpos : 0 < Config.params.wdMin := by rcases Params.wdMin_cases Config.params with h | h <;> omega
  have hne : ∀ b : Byte, b + 1 ≠ b := by decide
  refine ⟨hpos, ⟨hmin, ?_⟩, ⟨hmin, rfl, by decide⟩, ⟨by decide, ?_⟩⟩
  · exact fun h => hne _ (Option.some.inj h)
  · exact fun h => hne _ (List.cons.inj (List.cons.inj h).2).1

/-- The last two clauses at a buffer of ten bytes, its head wrong and right. -/
theorem witness_WdMinMattersOnlyForTenBytes :
    ([] : List Byte).length ≠ 10 ∧ (List.replicate 10 (0 : Byte)).length = 10 ∧
    (List.replicate 10 (0 : Byte))[0]? ≠ some paramsV.head ∧ (List.replicate 10 paramsV.head)[0]? = some paramsV.head := by
  decide

theorem witness_WrongWiredChecksumIsOnlyAFlag :
    WiredWellFormed Config.params (loaded 0 (wiredFrame Config.params 0 0 0 [])).input :=
  (input_loaded _ _).symm ▸ wired_witness _

/-- Of three different bytes one is neither sync value. -/
theorem witness_DirectionComesFromTheSyncByte : (0x00 : Byte) ≠ paramsV.syncH2P ∧ (0x00 : Byte) ≠ paramsV.syncP2H := by
  decide

theorem witness_WiredRoundTrip :
    (loaded 0 (List.replicate 261 0)).opnd.sync = some 0x01 ∧ (loaded 0 (List.replicate 261 0)).opnd.feature = some 0x0001 ∧
    (loaded 0 (List.replicate 261 0)).opnd.cmdid = some 0x0209 ∧ (loaded 0 (List.replicate 261 0)).input.length ≤ 65535 ∧
    11 + (loaded 0 (List.replicate 261 0)).input.length ≤ Config.params.bufCap := witness_WdBuildWritesTheFrame

/-- Every position has a byte that differs from the one there; the positions 0, 1, 5, 6, 7, 8, 9, 10, 11 of a frame with
one payload byte are the ends of the clauses. -/
theorem witness_WiredSingleByteCorruption :
    [(0 : Byte)].length ≤ 65535 ∧ (∀ k ∈ [0, 1, 5, 6, 7, 8, 9, 10, 11], k < 11 + [(0 : Byte)].length) ∧
    (∀ c : Byte, c + 1 ≠ c) ∧ (6 ≤ 6 ∧ 6 < 8) ∧ (6 ≤ 7 ∧ 7 < 8) ∧ 9 + [(0 : Byte)].length ≤ 10 ∧
    (1 ≤ 1 ∧ 1 < 9 + [(0 : Byte)].length ∧ ¬(6 ≤ 1 ∧ 1 < 8)) ∧ (1 ≤ 9 ∧ 9 < 9 + [(0 : Byte)].length ∧ ¬(6 ≤ 9 ∧ 9 < 8)) := by
  decide

/-- Both payload bounds: 239 bytes with AES, 245 without. -/
theorem witness_WlBuildWritesTheFrame :
    (loaded 2 (List.replicate 239 0)).opnd.crypto = some 0x02 ∧ (loaded 2 (List.replicate 239 0)).input.length ≤ 239 ∧
    (loaded 0 (List.replicate 245 0)).opnd.crypto = some 0x00 ∧ (0x00 : Byte) ≠ 0x02 ∧
    (loaded 0 (List.replicate 245 0)).input.length ≤ 245 := by
  refine ⟨rfl, ?_, rfl, by decide, ?_⟩ <;> rw [input_loaded, List.length_replicate]

theorem witness_WlBuildRefusesLongPayloads :
    (loaded 2 (List.replicate 240 0)).opnd.crypto = some 0x02 ∧ 239 < (loaded 2 (List.replicate 240 0)).input.length ∧
    (loaded 0 (List.replicate 246 0)).opnd.crypto = some 0x00 ∧ (0x00 : Byte) ≠ 0x02 ∧
    245 < (loaded 0 (List.replicate 246 0)).input.length := by
  refine ⟨rfl, ?_, rfl, by decide, ?_⟩ <;> rw [input_loaded, List.length_replicate] <;> decide

theorem witness_WlParseReturnsTheFieldsOrNull :
    WirelessAccepted Config.params (loaded 0 (wirelessFrame Config.params 0 [] 0 0)).input ∧
    ¬ WirelessAccepted Config.params (loaded 0 []).input :=
  ⟨(input_loaded _ _).symm ▸ wireless_witness _, fun h => absurd h.floor (by decide)⟩

theorem witness_WlParseFallsBackSilently :
    (0x01 : Byte) ≠ 0x02 ∧ (0x02 : Byte) = 0x02 ∧ [(0 : Byte)].length % 16 ≠ 0 ∧ List.replicate 16 (0 : Byte) ≠ [] ∧
    (List.replicate 16 (0 : Byte)).length % 16 = 0 := by decide

theorem witness_WirelessRoundTripPlain :
    (loaded 1 (List.replicate 245 0)).opnd.cmdid = some 0x0209 ∧ (loaded 1 (List.replicate 245 0)).opnd.crypto = some 0x01 ∧
    (loaded 1 (List.replicate 245 0)).opnd.seq = some 0x07 ∧ (0x01 : Byte) ≠ 0x02 ∧
    (loaded 1 (List.replicate 245 0)).input.length ≤ 245 := by
  refine ⟨rfl, rfl, rfl, by decide, ?_⟩
  rw [input_loaded, List.length_replicate]

theorem witness_WirelessRoundTripEncrypted :
    (loaded 2 (List.replicate 239 0)).opnd.cmdid = some 0x0209 ∧ (loaded 2 (List.replicate 239 0)).opnd.crypto = some 0x02 ∧
    (loaded 2 (List.replicate 239 0)).opnd.seq = some 0x07 ∧ (loaded 2 (List.replicate 239 0)).input.length ≤ 239 := by
  refine ⟨rfl, rfl, rfl, ?_⟩
  rw [input_loaded, List.length_replicate]

/-- The first and the last position of the longest frame. -/
theorem witness_WirelessSingleByteCorruption :
    (List.replicate 245 (0 : Byte)).length ≤ 245 ∧ 0 < 10 + (List.replicate 245 (0 : Byte)).length ∧
    254 < 10 + (List.replicate 245 (0 : Byte)).length ∧ ∀ c : Byte, c + 1 ≠ c := by
  refine ⟨?_, ?_, ?_, by decide⟩ <;> rw [List.length_replicate] <;> decide

theorem witness_ParsesAcceptExactlyTheFrames :
    WirelessAccepted Config.params (loaded 0 (wirelessFrame Config.params 0 [] 0 0)).input :=
  (input_loaded _ _).symm ▸ wireless_witness _

theorem witness_CutOrExtendedFramesAreNotParsed :
    WiredWellFormed Config.params (wiredFrame Config.params 0 0 0 []) ∧
    WirelessAccepted Config.params (wirelessFrame Config.params 0 [] 0 0) ∧ [(0 : Byte)] ≠ [] :=
  ⟨wired_witness _, wireless_witness _, by decide⟩

theorem witness_HostWritesChangeOnlyWhatTheyName :
    State.reset.phase ≠ .busy ∧ (List.replicate 272 (0 : Byte)).length ≤ Config.params.bufCap ∧
    Config.params.bufCap < (List.replicate (Config.params.bufCap + 1) (0 : Byte)).length := by
  refine ⟨by decide, ?_, ?_⟩ <;> rw [List.length_replicate]
  · exact Config.params.bufCap_ge
  · omega

/-- An assigned code with its operands written, and an unassigned code from reset. -/
theorem witness_StartLatchesAndInvalidates :
    (loaded 0 []).phase ≠ .busy ∧ (∀ i, decode 0x20 = .ok i → (loaded 0 []).opnd.ready i) ∧
    (∀ i, decode 0x00 = .ok i → State.reset.opnd.ready i) ∧ (State.reset.started 0x00).phase = .busy := by
  refine ⟨by decide, fun i h => ?_, fun i h => (by cases h), rfl⟩
  cases h
  exact OperandRegs.missing_eq_none.mp rfl

theorem witness_StartWithAnUnwrittenOperandIsRefused :
    State.reset.phase ≠ .busy ∧ decode 0x20 = .ok .wdBuild ∧ ¬ State.reset.opnd.ready .wdBuild ∧
    ∀ i, decode 0x55 ≠ .ok i :=
  ⟨by decide, rfl, fun h => absurd (OperandRegs.missing_eq_none.mpr h) (by decide), fun i h => by cases h⟩

theorem witness_BusyRefusesAllButStatusAndReset :
    (State.reset.started 0x01).Inv ∧ (State.reset.started 0x01).phase = .busy ∧
    HostAction.start 0x01 ≠ .readStatus ∧ HostAction.start 0x01 ≠ .reset := ⟨inv_started, rfl, by decide, by decide⟩

/-- A register that holds a value and one that does not, for both kinds of read. -/
theorem witness_ReadsReturnWhatIsHeld :
    (loaded 0 []).phase ≠ .busy ∧ (loaded 0 []).readable (.operand .sync) = some (.byte 0x01) ∧
    State.reset.readable (.operand .sync) = none ∧ (State.reset.failWith .badOp).phase = .done ∧
    (State.reset.succeedWith [0x00] ResultRegs.novalue false .none).resultAt .obuf = some (.bytes [0x00]) ∧
    (State.reset.failWith .badOp).resultAt .obuf = none := by decide

theorem witness_StatusWordFields : (State.reset.started 0x01).Inv ∧ (State.reset.started 0x01).phase = .busy :=
  ⟨inv_started, rfl⟩

theorem witness_ErrorCodeNumbers :
    exec .csumAdd State.reset = .next (State.reset.complete (.bytes [0x00])) := by rfl

/-- One completion with results and one with an error. -/
theorem witness_CompletionIsAllOrNothing :
    exec .csumAdd State.reset = .next (State.reset.complete (.bytes [0x00])) ∧
    exec .wlParse State.reset = .next (State.reset.complete (.failure .wlNull)) := ⟨rfl, rfl⟩

theorem witness_FlagsComeFromTheWiredParse :
    runCommand 0x01 State.reset = .next (State.reset.complete (.bytes [0x00])) ∧
    runCommand 0x55 State.reset = .next (State.reset.complete (.failure .badOp)) := ⟨rfl, rfl⟩

theorem witness_OperationsRunExactlyOnWrittenOperands :
    (loaded 0 []).opnd.ready .wlBuild ∧ ¬ State.reset.opnd.ready .wlBuild :=
  ⟨OperandRegs.missing_eq_none.mp rfl, fun h => absurd (OperandRegs.missing_eq_none.mpr h) (by decide)⟩

/-- Two states that differ in `KEY` and `IV` agree for the wireless build. -/
theorem witness_OperationsDependOnlyOnTheirOperands :
    (loaded 2 []).input = ({ loaded 2 [] with opnd := { operands 2 with key := none, iv := none } } : State).input ∧
    ∀ r ∈ Instr.wlBuild.reads, (loaded 2 []).opnd.get r = ({ operands 2 with key := none, iv := none } : OperandRegs).get r := by
  decide

theorem witness_EveryStepKeepsTheInvariant :
    (State.reset.started 0x01).Inv ∧
    step (State.reset.started 0x01) = .next ((State.reset.started 0x01).complete (.bytes [0x00])) := ⟨inv_started, rfl⟩

theorem witness_BusyEngineAlwaysCompletes : (State.reset.started 0x01).Inv ∧ (State.reset.started 0x01).phase = .busy :=
  ⟨inv_started, rfl⟩

/-- A host that polls twice. -/
theorem witness_PollingEndsWithCompletion :
    ({ State.reset.started 0x01 with script := List.replicate 2 (.host .readStatus) } : State).Inv ∧
    (State.reset.started 0x01).phase = .busy :=
  ⟨⟨⟨rfl, Nat.zero_le _, fun m h => by cases h⟩,
    ⟨⟨rfl, rfl, rfl, rfl⟩, rfl, 0x01, rfl, fun i h => by cases h; intro r hr; cases hr⟩⟩, rfl⟩

theorem witness_ResultsStayUntilStartOrReset :
    (State.reset.failWith .badOp).phase = .done ∧ (∀ c : Byte, Turn.host .readStatus ≠ .host (.start c)) ∧
    Turn.host .readStatus ≠ .host .reset ∧
    ∃ t, step ((State.reset.failWith .badOp).withTurn (.host .readStatus)) = .next t :=
  ⟨rfl, fun _ h => (by cases h), by decide, _, rfl⟩

theorem witness_OnlyTheEngineWritesResults : ∃ t, step (State.reset.withTurn (.host .readStatus)) = .next t := ⟨_, rfl⟩

/-- The last two bytes of a buffer. -/
theorem witness_TwoByteFieldsReadBack : 1 + 1 < [(0x00 : Byte), 0x12, 0x34].length := by decide

end Sys2Proof.Tests
end

section
/-!
PROOFS. Two-byte fields in both byte orders (spec 00_scope.md R7): the two bytes of a word as quotient and remainder
by 256, and the value read at a place where a field was written.
-/

namespace Sys2Proof.Proofs

/-! The two bytes of a word. -/

theorem highByte_eq_div (v : U16) : v.extractLsb' 8 8 = BitVec.ofNat 8 (v.toNat / 256) := by
  apply BitVec.eq_of_toNat_eq
  simp [Nat.shiftRight_eq_div_pow]

theorem lowByte_eq_mod (v : U16) : v.extractLsb' 0 8 = BitVec.ofNat 8 (v.toNat % 256) := by
  apply BitVec.eq_of_toNat_eq
  simp

/-! Reading inside a buffer. -/

/-- Bytes in front of a place and behind it do not matter to what is read there. -/
theorem byteAt_append_middle (X F Y : List Byte) {i : Nat} (h : i < F.length) :
    byteAt (X ++ F ++ Y) (X.length + i) = byteAt F i := by
  rw [List.append_assoc, byteAt_append_right (Nat.le_add_right ..), Nat.add_sub_cancel_left, byteAt_append_left h]

theorem rd16_append_middle (X F Y : List Byte) (h : F.length = 2) :
    rdBE16 (X ++ F ++ Y) X.length = rdBE16 F 0 ∧ rdLE16 (X ++ F ++ Y) X.length = rdLE16 F 0 := by
  have first : byteAt (X ++ F ++ Y) X.length = byteAt F 0 := byteAt_append_middle X F Y (i := 0) (by omega)
  have second : byteAt (X ++ F ++ Y) (X.length + 1) = byteAt F 1 := byteAt_append_middle X F Y (by omega)
  simp only [rdBE16, rdLE16, first, second, and_self]

/-! A field written and read in one byte order is the word itself: both put the same two bytes together. -/

@[simp] theorem rdBE16_be16 (v : U16) : rdBE16 (be16 v) 0 = v := highByte_append_lowByte v

@[simp] theorem rdLE16_le16 (v : U16) : rdLE16 (le16 v) 0 = v := highByte_append_lowByte v

/-- Settles O60: the bytes written by quotient and remainder, the values read from the two bytes in range, and the
read-back by moving the read to the field itself. -/
theorem twoByteFieldsReadBack : Obligations.TwoByteFieldsReadBack := by
  refine ⟨fun v => ?written, fun B i h => ?read, fun X Y v => ?readBack⟩
  case written => simp only [be16, le16, highByte_eq_div, lowByte_eq_mod, and_self]
  case read =>
    have first : byteAt B i = B[i] := byteAt_eq_getElem (Nat.lt_of_succ_lt h)
    have second : byteAt B (i + 1) = B[i + 1] := byteAt_eq_getElem h
    rw [rdBE16_toNat, rdLE16_toNat, first, second]
    omega
  case readBack =>
    have be := (rd16_append_middle X (be16 v) Y (length_be16 v)).left
    have le := (rd16_append_middle X (le16 v) Y (length_le16 v)).right
    exact ⟨be.trans (rdBE16_be16 v), le.trans (rdLE16_le16 v)⟩

end Sys2Proof.Proofs
end

section
/-!
PROOFS. What a completion can leave (spec 30_encoding.md R71; 45_host_interface.md R184; 60_exceptions.md R212): the
checks of the two parsers, the lengths of what the operations put out, and from these the shapes an ending can have.
-/

namespace Sys2Proof.Proofs

open Sys2Proof.Machine

/-! ## The wired parse and `WiredWellFormed` (R77, R144, R145) -/

theorem drop_length_sub_two {B : List Byte} (h : 2 ≤ B.length) :
    B.drop (B.length - 2) = [byteAt B (B.length - 2), byteAt B (B.length - 1)] := by
  have first : B.length - 2 < B.length := by omega
  have second : B.length - 2 + 1 < B.length := by omega
  have last : B.length - 2 + 1 = B.length - 1 := by omega
  have rest : B.drop (B.length - 2 + 1 + 1) = [] := List.drop_eq_nil_of_le (by omega)
  rw [List.drop_eq_getElem_cons first, List.drop_eq_getElem_cons second, rest, ← byteAt_eq_getElem,
    ← byteAt_eq_getElem, last]

/-- R77's predicate in the words of R145's four checks. -/
theorem wiredWellFormed_iff {P : Params} {B : List Byte} :
    WiredWellFormed P B ↔ byteAt B 0 = P.head ∧ 11 + (rdBE16 B 6).toNat = B.length ∧
      byteAt B (B.length - 2) = P.term0 ∧ byteAt B (B.length - 1) = P.term1 := by
  constructor
  · rintro ⟨floor, head, length, term⟩
    rw [getElem?_eq_byteAt (by omega), Option.some_inj] at head
    rw [drop_length_sub_two (by omega)] at term
    obtain ⟨term0, term1⟩ := by simpa using term
    exact ⟨head, by rwa [rdBE16_toNat], term0, term1⟩
  · rintro ⟨head, length, term0, term1⟩
    have floor : 11 ≤ B.length := by omega
    refine ⟨floor, ?_, by rwa [rdBE16_toNat] at length, ?_⟩
    · rw [getElem?_eq_byteAt (by omega), head]
    · rw [drop_length_sub_two (by omega), term0, term1]

/-- A well-formed buffer passes the four checks; its length field then places the checksum three bytes before the
end, whatever `WD_MIN` is. -/
theorem wiredParseEnding_of_wellFormed {P : Params} {B : List Byte} (h : WiredWellFormed P B) :
    wiredParseEnding P B = .success (slice B 8 (B.length - 3))
      ⟨some (byteAt B 1), some (rdBE16 B 2), some (rdBE16 B 4), none, none, some (BitVec.ofNat 32 B.length)⟩
      (csumAdd (B.take (B.length - 3)) == byteAt B (B.length - 3)) (directionOf P (byteAt B 1)) := by
  obtain ⟨head, length, term0, term1⟩ := wiredWellFormed_iff.mp h
  have long : ¬ B.length < P.wdMin := by have := P.wdMin_cases; omega
  have place : 8 + (rdBE16 B 6).toNat = B.length - 3 := by omega
  simp [wiredParseEnding, Config.wdOverhead, long, head, length, term0, term1, place, slice, ResultRegs.novalue]

theorem wiredParseEnding_of_not_wellFormed {P : Params} {B : List Byte} (h : ¬ WiredWellFormed P B) :
    ∃ e ∈ Instr.wdParse.canFailWith, wiredParseEnding P B = .failure e := by
  simp only [wiredParseEnding]
  split
  · exact ⟨.tooShort, by decide, rfl⟩
  split
  · exact ⟨.badHead, by decide, rfl⟩
  split
  · exact ⟨.lengthMismatch, by decide, rfl⟩
  split
  · exact ⟨.badTerminator, by decide, rfl⟩
  next head length term =>
    obtain ⟨term0, term1⟩ := not_or.mp term
    exact absurd (wiredWellFormed_iff.mpr
      ⟨not_not.mp head, not_not.mp length, not_not.mp term0, not_not.mp term1⟩) h

/-- The checksum comparison of the parse is what `WiredIntact` adds to `WiredWellFormed`. -/
theorem wiredIntact_iff {P : Params} {B : List Byte} (h : WiredWellFormed P B) :
    WiredIntact P B ↔ csumAdd (B.take (B.length - 3)) = byteAt B (B.length - 3) := by
  have inside : B.length - 3 < B.length := by have := h.floor; omega
  rw [eq_comm, ← Option.some_inj, ← getElem?_eq_byteAt inside]
  exact ⟨WiredIntact.checksum, WiredIntact.mk h⟩

theorem directionOf_ne_none (P : Params) (sync : Byte) : directionOf P sync ≠ .none := by
  unfold directionOf
  split
  · nofun
  split <;> nofun

/-! ## How long an output is -/

theorem length_slice_le (B : List Byte) (a b : Nat) : (slice B a b).length ≤ B.length := by
  simp only [slice, List.length_drop, List.length_take]; omega

theorem length_unpadSoft_le (D : List Byte) : (unpadSoft D).length ≤ D.length := by
  unfold unpadSoft
  split
  · exact le_rfl
  · simp only
    split
    · exact List.length_take_le' ..
    · exact le_rfl

@[simp] theorem length_aesCbcEnc (B : List Byte) (key iv : Block) :
    (aesCbcEnc B key iv).length = 16 * (B.length / 16 + 1) := by
  simp [aesCbcEnc, length_pkcs7Pad, Nat.mul_comm]

theorem length_aesCbcUnchain_le (C : List Byte) (key iv : Block) : (aesCbcUnchain C key iv).length ≤ C.length := by
  simp only [aesCbcUnchain, length_flatMap_blockBytes, length_chainDec, length_blocksOf]; omega

theorem length_of_aesCbcDec {C D : List Byte} {key iv : Block} (h : aesCbcDec C key iv = .ok D) :
    D.length ≤ C.length := by
  unfold aesCbcDec at h
  split at h
  · cases h
  · cases h
    exact (length_unpadSoft_le _).trans (length_aesCbcUnchain_le ..)

theorem length_wirelessPlain_le (P : Params) (raw : List Byte) (crypto : Byte) :
    (wirelessPlain P raw crypto).length ≤ raw.length := by
  unfold wirelessPlain
  split
  · split
    · exact length_of_aesCbcDec ‹_›
    · exact le_rfl
  · exact le_rfl

/-! ## The shapes of an ending -/

/-- The endings that R71's row of the operation allows on the input `B`: one of its error codes; bytes alone, for an
operation that writes no result register; or the fields of its parse. What is put out is no longer than `BUFCAP` or
than the input. -/
inductive EndingAllowed (B : List Byte) : Instr → Ending → Prop
  | failure {i : Instr} {e : ErrCode} (listed : e ∈ i.canFailWith) : EndingAllowed B i (.failure e)
  | bytes {i : Instr} {out : List Byte} (noField : i.writes = [])
      (room : out.length ≤ max Config.params.bufCap B.length) : EndingAllowed B i (.bytes out)
  | wired {out : List Byte} {sync : Byte} {feature cmdid : U16} {total : U32} {csumOk : Bool} {dir : Direction}
      (room : out.length ≤ max Config.params.bufCap B.length) (known : dir ≠ .none) :
      EndingAllowed B .wdParse
        (.success out ⟨some sync, some feature, some cmdid, none, none, some total⟩ csumOk dir)
  | wireless {out : List Byte} {cmdid : U16} {crypto seq : Byte} {total : U32}
      (room : out.length ≤ max Config.params.bufCap B.length) :
      EndingAllowed B .wlParse
        (.success out ⟨none, none, some cmdid, some crypto, some seq, some total⟩ false .none)

theorem aesEncEnding_allowed (key iv : Block) (B : List Byte) :
    EndingAllowed B .aesEnc (aesEncEnding Config.params key iv B) := by
  unfold aesEncEnding
  split
  next fits =>
    rw [Params.fits_iff] at fits
    exact .bytes rfl (by simp [fits])
  · exact .failure (by decide)

theorem aesDecEnding_allowed (key iv : Block) (C : List Byte) : EndingAllowed C .aesDec (aesDecEnding key iv C) := by
  by_cases whole : C.length % 16 = 0
  · have room := (length_unpadSoft_le _).trans (length_aesCbcUnchain_le C key iv)
    rw [aesDecEnding_of_whole whole]
    exact .bytes rfl (le_max_of_le_right room)
  · rw [aesDecEnding_of_partial whole]
    exact .failure (by decide)

/-- Both wired builds, on whatever payload they make of the input `B`. -/
theorem wiredBuildEnding_allowed {i : Instr} (noField : i.writes = [])
    (errors : i.canFailWith = [.fieldRange, .bufOverflow]) (sync : Byte) (feature cmdid : U16)
    (payload B : List Byte) : EndingAllowed B i (wiredBuildEnding Config.params sync feature cmdid payload) := by
  unfold wiredBuildEnding
  split
  · exact .failure (by simp [errors])
  split
  next fits =>
    rw [Params.fits_iff] at fits
    exact .bytes noField (le_max_of_le_left (by rwa [length_wiredFrame]))
  · exact .failure (by simp [errors])

theorem wirelessBuildEnding_allowed (cmdid : U16) (crypto seq : Byte) (B : List Byte) :
    EndingAllowed B .wlBuild (wirelessBuildEnding Config.params cmdid crypto seq B) := by
  unfold wirelessBuildEnding
  simp only
  split
  · exact .failure (by decide)
  next short =>
    have cap := Config.params.bufCap_ge
    have total : Config.wlOverhead = 10 := rfl
    refine .bytes rfl (le_max_of_le_left ?_)
    rw [length_wirelessFrame]
    omega

theorem wiredParseEnding_allowed (B : List Byte) : EndingAllowed B .wdParse (wiredParseEnding Config.params B) := by
  by_cases h : WiredWellFormed Config.params B
  · rw [wiredParseEnding_of_wellFormed h]
    exact .wired (le_max_of_le_right (length_slice_le ..)) (directionOf_ne_none _ _)
  · obtain ⟨e, listed, failed⟩ := wiredParseEnding_of_not_wellFormed h
    rw [failed]
    exact .failure listed

/-- Five checks with the one sentinel; past them the payload, decrypted or raw, is no longer than the input. -/
theorem wirelessParseEnding_allowed (B : List Byte) :
    EndingAllowed B .wlParse (wirelessParseEnding Config.params B) := by
  have null : EndingAllowed B .wlParse (.failure .wlNull) := .failure (by decide)
  simp only [wirelessParseEnding]
  split
  · exact null
  split
  · exact null
  split
  · exact null
  split
  · exact null
  split
  · exact null
  · exact .wireless (le_max_of_le_right ((length_wirelessPlain_le ..).trans (length_slice_le ..)))

/-- Every next state of `exec` is a completion with an ending that the operation's row allows. -/
theorem exec_next_allowed {i : Instr} {s t : State} (h : exec i s = .next t) :
    ∃ E, EndingAllowed s.input i E ∧ t = s.complete E := by
  have one : ∀ b : Byte, [b].length ≤ max Config.params.bufCap s.input.length :=
    fun _ => le_max_of_le_left (Nat.le_trans (by decide : 1 ≤ 272) Config.params.bufCap_ge)
  cases i with
  | csumAdd => cases h; exact ⟨_, .bytes rfl (one _), rfl⟩
  | csumXor => cases h; exact ⟨_, .bytes rfl (one _), rfl⟩
  | aesEnc =>
    obtain ⟨key, -, h⟩ := needOperand_next h
    obtain ⟨iv, -, h⟩ := needOperand_next h
    cases h; exact ⟨_, aesEncEnding_allowed .., rfl⟩
  | aesDec =>
    obtain ⟨key, -, h⟩ := needOperand_next h
    obtain ⟨iv, -, h⟩ := needOperand_next h
    cases h; exact ⟨_, aesDecEnding_allowed .., rfl⟩
  | wdBuild =>
    obtain ⟨sync, -, h⟩ := needOperand_next h
    obtain ⟨feature, -, h⟩ := needOperand_next h
    obtain ⟨cmdid, -, h⟩ := needOperand_next h
    cases h; exact ⟨_, wiredBuildEnding_allowed rfl rfl .., rfl⟩
  | wdParse => cases h; exact ⟨_, wiredParseEnding_allowed .., rfl⟩
  | wdResp =>
    obtain ⟨cmdid, -, h⟩ := needOperand_next h
    obtain ⟨seq, -, h⟩ := needOperand_next h
    obtain ⟨result, -, h⟩ := needOperand_next h
    cases h; exact ⟨_, wiredBuildEnding_allowed rfl rfl .., rfl⟩
  | wlBuild =>
    obtain ⟨cmdid, -, h⟩ := needOperand_next h
    obtain ⟨crypto, -, h⟩ := needOperand_next h
    obtain ⟨seq, -, h⟩ := needOperand_next h
    cases h; exact ⟨_, wirelessBuildEnding_allowed .., rfl⟩
  | wlParse => cases h; exact ⟨_, wirelessParseEnding_allowed .., rfl⟩

/-! ## What a completion leaves in the state -/

theorem failWith_failedWith (s : State) (e : ErrCode) : FailedWith e (s.failWith e) :=
  ⟨rfl, rfl, ⟨rfl, rfl, rfl, rfl⟩⟩

theorem resultAt_of_novalue {s : State} (h : s.res = ResultRegs.novalue) {r : ResultLoc}
    (hr : r ∈ resultRegisters) : s.resultAt r = none := by
  revert r
  simp [resultRegisters, State.resultAt, h]

/-- All of the operation's own results, or one of its own errors and no result (R212). -/
theorem complete_allowed {B : List Byte} {i : Instr} {E : Ending} (h : EndingAllowed B i E) (s : State) :
    OwnResults i (s.complete E) ∨ ∃ e ∈ i.canFailWith, FailedWith e (s.complete E) := by
  cases h with
  | @failure _ e listed => exact .inr ⟨e, listed, failWith_failedWith s e⟩
  | @bytes _ out noField room =>
    have notParse : i ≠ .wdParse := by rintro rfl; simp [Instr.writes] at noField
    refine .inl ⟨rfl, rfl, rfl, fun r hr => ?_, by simp, by simp [notParse]⟩
    have empty : (s.complete (.bytes out)).resultAt r = none := resultAt_of_novalue rfl hr
    rw [empty, noField]
    simp
  | wired room known =>
    exact .inl ⟨rfl, rfl, rfl, by simp [resultRegisters, State.resultAt, Instr.writes], fun _ => rfl, by simp [known]⟩
  | wireless room =>
    exact .inl ⟨rfl, rfl, rfl, by simp [resultRegisters, State.resultAt, Instr.writes], by simp, by simp⟩

theorem complete_obuf_allowed {B : List Byte} {i : Instr} {E : Ending} (h : EndingAllowed B i E) {s : State}
    {m : Memory} (hm : (s.complete E).obuf = some m) :
    m.wf ∧ m.length ≤ max Config.params.bufCap B.length := by
  have loaded : ∀ out : List Byte, out.length ≤ max Config.params.bufCap B.length →
      (Memory.load out).wf ∧ (Memory.load out).length ≤ max Config.params.bufCap B.length :=
    fun out room => ⟨Memory.wf_load out, by rwa [Memory.length_load]⟩
  cases h with
  | failure => cases hm
  | bytes noField room => cases hm; exact loaded _ room
  | wired room known => cases hm; exact loaded _ room
  | wireless room => cases hm; exact loaded _ room

end Sys2Proof.Proofs
end

section
/-!
PROOFS. What a host action does to the results, and the invariant of the runs from reset (spec 10_state.md R13 to R16,
R21, R30, R32; 45_host_interface.md R181 to R186; 60_exceptions.md R201).
-/

namespace Sys2Proof.Proofs

open Sys2Proof.Machine

/-! ## States that hold the same results -/

/-- The results, the flags, the command latch and the phase are the same in both states. -/
structure SameResults (s t : State) : Prop where
  obuf : t.obuf = s.obuf
  res : t.res = s.res
  flags : t.flags = s.flags
  op : t.op = s.op
  phase : t.phase = s.phase

namespace SameResults

variable {s t : State}

theorem resultAt (h : SameResults s t) (r : ResultLoc) : t.resultAt r = s.resultAt r := by
  cases r <;> simp only [State.resultAt, State.olen, State.output, h.obuf, h.res]

theorem noResults (h : SameResults s t) (hs : NoResults s) : NoResults t where
  obuf := h.obuf.trans hs.obuf
  res := h.res.trans hs.res
  csumOk := h.flags ▸ hs.csumOk
  dir := h.flags ▸ hs.dir

theorem ownResults (h : SameResults s t) {i : Instr} (hs : OwnResults i s) : OwnResults i t where
  phase := h.phase.trans hs.phase
  err := h.flags ▸ hs.err
  obuf := h.obuf ▸ hs.obuf
  res r hr := h.resultAt r ▸ hs.res r hr
  csumOk := h.flags ▸ hs.csumOk
  dir := h.flags ▸ hs.dir

theorem failedWith (h : SameResults s t) {e : ErrCode} (hs : FailedWith e s) : FailedWith e t where
  phase := h.phase.trans hs.phase
  err := h.flags ▸ hs.err
  none := h.noResults hs.none

end SameResults

/-! ## `PhaseWf`, phase by phase -/

theorem phaseWf_of_idle {s : State} (h : s.phase = .idle) :
    PhaseWf s ↔ s.op = none ∧ NoResults s ∧ s.flags.err = .ok := by
  simp only [PhaseWf, h]

theorem phaseWf_of_busy {s : State} (h : s.phase = .busy) :
    PhaseWf s ↔ NoResults s ∧ s.flags.err = .ok ∧
      ∃ code, s.op = some code ∧ ∀ i, decode code = .ok i → s.opnd.ready i := by
  simp only [PhaseWf, h]

theorem phaseWf_of_done {s : State} (h : s.phase = .done) :
    PhaseWf s ↔ ∃ code, s.op = some code ∧
      ((∃ i, decode code = .ok i ∧ (OwnResults i s ∨ ∃ e ∈ i.canFailWith, FailedWith e s)) ∨
        ((∀ i, decode code ≠ .ok i) ∧ FailedWith .badOp s)) := by
  simp only [PhaseWf, h]

/-- What a phase says of the rest of the state is about the results, and in `BUSY` about the operands too. -/
theorem phaseWf_of_sameResults {s t : State} (h : SameResults s t) (opnd : s.phase = .busy → t.opnd = s.opnd)
    (hs : PhaseWf s) : PhaseWf t := by
  cases hp : s.phase with
  | idle =>
    obtain ⟨op, none, err⟩ := (phaseWf_of_idle hp).mp hs
    exact (phaseWf_of_idle (h.phase.trans hp)).mpr ⟨h.op.trans op, h.noResults none, h.flags ▸ err⟩
  | busy =>
    obtain ⟨none, err, code, op, ready⟩ := (phaseWf_of_busy hp).mp hs
    exact (phaseWf_of_busy (h.phase.trans hp)).mpr
      ⟨h.noResults none, h.flags ▸ err, code, h.op.trans op, opnd hp ▸ ready⟩
  | done =>
    obtain ⟨code, op, outcome⟩ := (phaseWf_of_done hp).mp hs
    refine (phaseWf_of_done (h.phase.trans hp)).mpr ⟨code, h.op.trans op, outcome.imp ?_ ?_⟩
    · rintro ⟨i, hi, own | ⟨e, listed, failed⟩⟩
      · exact ⟨i, hi, .inl (h.ownResults own)⟩
      · exact ⟨i, hi, .inr ⟨e, listed, h.failedWith failed⟩⟩
    · exact fun ⟨unassigned, failed⟩ => ⟨unassigned, h.failedWith failed⟩

/-! ## What a host action does to the results -/

/-- Every host action keeps all results, except a start and a reset, which drop them; only an action outside `BUSY`
writes an operand. -/
theorem hostAct_results {a : HostAction} {s t : State} (h : hostAct a s = .next t) :
    (SameResults s t ∧ (s.phase = .busy → t.opnd = s.opnd)) ∨
    (∃ c, (∀ i, decode c = .ok i → s.opnd.ready i) ∧ t = s.started c) ∨ t = s.resetEngine := by
  rcases hostAct_next h with ⟨w, -, notBusy, rfl⟩ | ⟨B, -, -, -, rfl⟩ | ⟨c, -, -, ready, rfl⟩ | ⟨-, rfl⟩ |
    ⟨r, v, -, -, -, rfl⟩ | ⟨r, v, -, -, -, rfl⟩ | ⟨-, rfl⟩
  · exact .inl ⟨⟨rfl, rfl, rfl, rfl, rfl⟩, fun busy => absurd busy notBusy⟩
  · exact .inl ⟨⟨rfl, rfl, rfl, rfl, rfl⟩, fun _ => rfl⟩
  · exact .inr (.inl ⟨c, ready, rfl⟩)
  · exact .inl ⟨⟨rfl, rfl, rfl, rfl, rfl⟩, fun _ => rfl⟩
  · exact .inl ⟨⟨rfl, rfl, rfl, rfl, rfl⟩, fun _ => rfl⟩
  · exact .inl ⟨⟨rfl, rfl, rfl, rfl, rfl⟩, fun _ => rfl⟩
  · exact .inr (.inr rfl)

theorem resultAt_started (s : State) (c : Byte) (r : ResultLoc) : (s.started c).resultAt r = none := by
  cases r <;> rfl

theorem resultAt_resetEngine (s : State) (r : ResultLoc) : s.resetEngine.resultAt r = none := by
  cases r <;> rfl

/-- Settles O59: a host action keeps the results or is a start or a reset, and neither of these ends in `DONE`. -/
theorem onlyTheEngineWritesResults : Obligations.OnlyTheEngineWritesResults := by
  intro s t a h
  have act : hostAct a s = .next t := (step_of_host (s := s.withTurn (.host a)) rfl).symm.trans h
  rcases hostAct_results act with ⟨same, -⟩ | ⟨c, -, rfl⟩ | rfl
  · exact ⟨fun r => .inl (same.resultAt r), .inl same.flags, fun done => same.phase ▸ done⟩
  · exact ⟨fun r => .inr (resultAt_started s c r), .inr rfl, nofun⟩
  · exact ⟨fun r => .inr (resultAt_resetEngine s r), .inr rfl, nofun⟩

/-! ## The buffers -/

theorem buffersWf_of_emptied {s : State} (ibuf : s.ibuf = []) (obuf : s.obuf = none) : BuffersWf s where
  ibuf := ibuf ▸ Memory.wf_nil
  ibufCap := by simp [ibuf]
  obuf := by simp [obuf]

/-- A host action leaves `IBUF` canonical and within `BUFCAP`: a load that does not fit is no action (R181). -/
theorem hostAct_buffersWf {a : HostAction} {s t : State} (h : hostAct a s = .next t) (hs : BuffersWf s) :
    BuffersWf t := by
  rcases hostAct_next h with ⟨w, -, -, rfl⟩ | ⟨B, -, -, fits, rfl⟩ | ⟨c, -, -, -, rfl⟩ | ⟨-, rfl⟩ |
    ⟨r, v, -, -, -, rfl⟩ | ⟨r, v, -, -, -, rfl⟩ | ⟨-, rfl⟩
  · exact ⟨hs.ibuf, hs.ibufCap, hs.obuf⟩
  · exact ⟨Memory.wf_load B, by rwa [Memory.length_load], hs.obuf⟩
  · exact ⟨hs.ibuf, hs.ibufCap, nofun⟩
  · exact ⟨hs.ibuf, hs.ibufCap, hs.obuf⟩
  · exact ⟨hs.ibuf, hs.ibufCap, hs.obuf⟩
  · exact ⟨hs.ibuf, hs.ibufCap, hs.obuf⟩
  · exact buffersWf_of_emptied rfl rfl

/-- A completion leaves `IBUF`, and in `OBUF` what the operation's row allows. -/
theorem complete_buffersWf {s : State} {i : Instr} {E : Ending} (allowed : EndingAllowed s.input i E)
    (hs : BuffersWf s) : BuffersWf (s.complete E) where
  ibuf := by simpa using hs.ibuf
  ibufCap := by simpa using hs.ibufCap
  obuf m hm := by
    obtain ⟨wf, room⟩ := complete_obuf_allowed allowed hm
    have input : s.input.length ≤ Config.params.bufCap := by simpa using hs.ibufCap
    exact ⟨wf, room.trans (max_le le_rfl input)⟩

/-! ## The invariant -/

theorem inv_resetEngine (s : State) : s.resetEngine.Inv where
  buffers := buffersWf_of_emptied rfl rfl
  phase := (phaseWf_of_idle rfl).mpr ⟨rfl, ⟨rfl, rfl, rfl, rfl⟩, rfl⟩

/-- Settles O54: a state after reset is one that a reset of the engine leaves. -/
theorem resetMeetsTheInvariant : Obligations.ResetMeetsTheInvariant := inv_resetEngine State.reset

/-- The script is the model's own and no part of the invariant. -/
theorem inv_withScript {s : State} (h : s.Inv) (script : List Turn) : ({ s with script := script } : State).Inv where
  buffers := ⟨h.buffers.ibuf, h.buffers.ibufCap, h.buffers.obuf⟩
  phase := phaseWf_of_sameResults (s := s) ⟨rfl, rfl, rfl, rfl, rfl⟩ (fun _ => rfl) h.phase

theorem hostAct_keeps_inv {a : HostAction} {s t : State} (h : hostAct a s = .next t) (hs : s.Inv) : t.Inv := by
  refine ⟨hostAct_buffersWf h hs.buffers, ?_⟩
  rcases hostAct_results h with ⟨same, opnd⟩ | ⟨c, ready, rfl⟩ | rfl
  · exact phaseWf_of_sameResults same opnd hs.phase
  · exact (phaseWf_of_busy rfl).mpr ⟨⟨rfl, rfl, rfl, rfl⟩, rfl, c, rfl, ready⟩
  · exact (inv_resetEngine s).phase

theorem engineStep_keeps_inv {s t : State} (h : engineStep s = .next t) (hs : s.Inv) : t.Inv := by
  obtain ⟨-, c, op, ⟨i, hi, run⟩ | ⟨unassigned, rfl⟩⟩ := engineStep_next h
  · obtain ⟨E, allowed, rfl⟩ := exec_next_allowed run
    refine ⟨complete_buffersWf allowed hs.buffers, (phaseWf_of_done (State.complete_phase ..)).mpr ⟨c, ?_, ?_⟩⟩
    · rw [State.complete_op, op]
    · exact .inl ⟨i, hi, complete_allowed allowed s⟩
  · refine ⟨⟨hs.buffers.ibuf, hs.buffers.ibufCap, nofun⟩, (phaseWf_of_done rfl).mpr ⟨c, op, ?_⟩⟩
    exact .inr ⟨unassigned, failWith_failedWith s .badOp⟩

/-- Settles O55: a step is one host action or the engine's turn, on a state that differs in its script alone. -/
theorem everyStepKeepsTheInvariant : Obligations.EveryStepKeepsTheInvariant := by
  intro s t hs h
  rcases step_next h with ⟨a, rest, -, act⟩ | ⟨rest, -, run⟩ | ⟨-, run⟩
  · exact hostAct_keeps_inv act (inv_withScript hs rest)
  · exact engineStep_keeps_inv run (inv_withScript hs rest)
  · exact engineStep_keeps_inv run hs

end Sys2Proof.Proofs
end

section
/-!
PROOFS. The `STATUS` word and its flags (spec 10_state.md R16, R21), and how they depend on the wired parse alone.
-/

namespace Sys2Proof.Proofs

open Sys2Proof.Machine

/-! ## Taking a field out of a word put together from fields -/

/-- A field does not change when bits are put below it; it only moves up by their number. -/
theorem extractLsb'_above {u v : Nat} (x : BitVec u) (low : BitVec v) (k n : Nat) :
    (x ++ low).extractLsb' (v + k) n = x.extractLsb' k n := by
  rw [BitVec.extractLsb'_append_eq_of_le (Nat.le_add_right ..), Nat.add_sub_cancel_left]

theorem extractLsb'_lowest {u n : Nat} (x : BitVec u) (f : BitVec n) : (x ++ f).extractLsb' 0 n = f := by
  rw [BitVec.extractLsb'_append_eq_of_add_le (Nat.zero_add n).le, BitVec.extractLsb'_eq_self]

/-- Seven fields side by side, as many as `STATUS` has: each is found above the widths of those below it. -/
theorem extractLsb'_of_fields {n6 n5 n4 n3 n2 n1 n0 : Nat} (f6 : BitVec n6) (f5 : BitVec n5) (f4 : BitVec n4)
    (f3 : BitVec n3) (f2 : BitVec n2) (f1 : BitVec n1) (f0 : BitVec n0)
    (w : BitVec (n6 + n5 + n4 + n3 + n2 + n1 + n0)) (hw : w = f6 ++ f5 ++ f4 ++ f3 ++ f2 ++ f1 ++ f0) :
    w.extractLsb' 0 n0 = f0 ∧ w.extractLsb' (n0 + 0) n1 = f1 ∧ w.extractLsb' (n0 + (n1 + 0)) n2 = f2 ∧
    w.extractLsb' (n0 + (n1 + (n2 + 0))) n3 = f3 ∧ w.extractLsb' (n0 + (n1 + (n2 + (n3 + 0)))) n4 = f4 ∧
    w.extractLsb' (n0 + (n1 + (n2 + (n3 + (n4 + 0))))) n5 = f5 ∧
    w.extractLsb' (n0 + (n1 + (n2 + (n3 + (n4 + (n5 + 0)))))) n6 = f6 := by
  subst hw
  simp only [extractLsb'_above, extractLsb'_lowest, BitVec.extractLsb'_eq_self, and_self]

/-- R16's layout, every field as a bit string. -/
theorem status_fields (s : State) :
    s.status.extractLsb' 0 1 = s.phase.doneBit ∧ s.status.extractLsb' 1 1 = s.phase.busyBit ∧
    s.status.extractLsb' 2 1 = BitVec.ofBool s.flags.csumOk ∧ s.status.extractLsb' 3 2 = s.flags.dir.code ∧
    s.status.extractLsb' 5 3 = 0 ∧ s.status.extractLsb' 8 4 = s.flags.err.code ∧ s.status.extractLsb' 12 4 = 0 :=
  extractLsb'_of_fields (0 : BitVec 4) s.flags.err.code (0 : BitVec 3) s.flags.dir.code
    (BitVec.ofBool s.flags.csumOk) s.phase.busyBit s.phase.doneBit s.status rfl

theorem getLsbD_of_extractLsb' {n k : Nat} {w : BitVec n} {f : BitVec 1} (h : w.extractLsb' k 1 = f) :
    w.getLsbD k = (f == 1#1) := by
  rw [BitVec.getLsbD_eq_extractLsb', h]

theorem doneBit_eq_one (p : Phase) : (p.doneBit == 1#1) = decide (p = .done) := by cases p <;> rfl

theorem busyBit_eq_one (p : Phase) : (p.busyBit == 1#1) = decide (p = .busy) := by cases p <;> rfl

/-! ## `STATUS` while `BUSY` -/

/-- In `BUSY` no flag is set (R16). -/
theorem flags_of_busy {s : State} (h : s.Inv) (hp : s.phase = .busy) : s.flags = Flags.clear := by
  obtain ⟨none, err, -⟩ := (phaseWf_of_busy hp).mp h.phase
  calc s.flags = ⟨s.flags.csumOk, s.flags.dir, s.flags.err⟩ := rfl
    _ = Flags.clear := by rw [none.csumOk, none.dir, err]; rfl

/-- Settles O48: the fields by where they stand in the word, the `BUSY` word by the invariant. -/
theorem statusWordFields : Obligations.StatusWordFields := by
  refine ⟨fun s => ?fields, rfl, rfl, rfl, rfl, fun s h hp => ?busy, rfl⟩
  case fields =>
    obtain ⟨done, busy, csumOk, dir, gap, err, top⟩ := status_fields s
    refine ⟨?_, ?_, ?_, dir, gap, err, top⟩
    · rw [getLsbD_of_extractLsb' done, doneBit_eq_one]
    · rw [getLsbD_of_extractLsb' busy, busyBit_eq_one]
    · rw [getLsbD_of_extractLsb' csumOk]
      cases s.flags.csumOk <;> rfl
  case busy =>
    rw [State.status, flags_of_busy h hp, hp]
    rfl

/-! ## The flags a command leaves (R21) -/

/-- Completion writes every flag, so it does not matter what the flags were. -/
theorem complete_withFlags (s : State) (f : Flags) (E : Ending) :
    ({ s with flags := f } : State).complete E = s.complete E := by
  cases E <;> rfl

theorem needOperand_congr {α : Type} {o : Option α} {r : OperandReg} {k l : α → Host.Outcome State Fault Refusal}
    (h : ∀ v, k v = l v) : needOperand o r k = needOperand o r l := by
  cases o with
  | none => rfl
  | some v => exact h v

theorem exec_withFlags (i : Instr) (s : State) (f : Flags) : exec i { s with flags := f } = exec i s := by
  have same : ∀ E, (.next (({ s with flags := f } : State).complete E) : Host.Outcome State Fault Refusal) =
      .next (s.complete E) := fun E => by rw [complete_withFlags]
  cases i with
  | csumAdd => exact same _
  | csumXor => exact same _
  | wdParse => exact same _
  | wlParse => exact same _
  | aesEnc => exact needOperand_congr fun _ => needOperand_congr fun _ => same _
  | aesDec => exact needOperand_congr fun _ => needOperand_congr fun _ => same _
  | wdBuild => exact needOperand_congr fun _ => needOperand_congr fun _ => needOperand_congr fun _ => same _
  | wdResp => exact needOperand_congr fun _ => needOperand_congr fun _ => needOperand_congr fun _ => same _
  | wlBuild => exact needOperand_congr fun _ => needOperand_congr fun _ => needOperand_congr fun _ => same _

theorem exec_next_flags_of_ne {i : Instr} {s t : State} (h : exec i s = .next t) (hi : i ≠ .wdParse) :
    t.flags.csumOk = false ∧ t.flags.dir = .none := by
  obtain ⟨E, allowed, rfl⟩ := exec_next_allowed h
  rcases complete_allowed allowed s with own | ⟨e, -, failed⟩
  · exact ⟨Bool.eq_false_iff.mpr (mt own.csumOk hi), not_not.mp (mt own.dir.mp hi)⟩
  · exact ⟨failed.none.csumOk, failed.none.dir⟩

/-- The flags of a wired parse: an intact buffer is one that passes the four checks and whose checksum agrees. -/
theorem wdParse_flags {s t : State} (h : exec .wdParse s = .next t) :
    (t.flags.csumOk = true ↔ WiredIntact Config.params s.input) ∧
    t.flags.dir = if t.flags.err = .ok then directionOf Config.params (byteAt s.input 1) else .none := by
  rw [exec_wdParse] at h
  cases h
  by_cases wf : WiredWellFormed Config.params s.input
  · simp [wiredParseEnding_of_wellFormed wf, wiredIntact_iff wf]
  · obtain ⟨e, listed, failed⟩ := wiredParseEnding_of_not_wellFormed wf
    have notIntact : ¬ WiredIntact Config.params s.input := fun intact => wf intact.wellFormed
    have notOk : e ≠ .ok := by rintro rfl; simp [Instr.canFailWith] at listed
    simp [failed, notIntact, notOk]

/-- Settles O51: a wired parse by its two outcomes; every other operation and every unassigned code leaves both flags
0; and completion overwrites whatever the flags were. -/
theorem flagsComeFromTheWiredParse : Obligations.FlagsComeFromTheWiredParse := by
  refine ⟨fun c s t h => ?flags, exec_withFlags⟩
  have bothClear : decode c ≠ .ok .wdParse → t.flags.csumOk = false ∧ t.flags.dir = .none := by
    intro other
    unfold runCommand at h
    split at h
    next i hi => exact exec_next_flags_of_ne h fun hw => other (hw ▸ hi)
    next => cases h; exact ⟨rfl, rfl⟩
  by_cases parse : decode c = .ok .wdParse
  · have run : exec .wdParse s = .next t := by simpa [runCommand, parse] using h
    obtain ⟨csumOk, dir⟩ := wdParse_flags run
    exact ⟨by simpa [parse] using csumOk, by simpa [parse] using dir, directionOf_ne_none _ _⟩
  · obtain ⟨csumOk, dir⟩ := bothClear parse
    exact ⟨by simp [parse, csumOk], by simp [parse, dir], directionOf_ne_none _ _⟩

end Sys2Proof.Proofs
end

section
/-!
PROOFS. What an operation answers depends on the operand registers that it reads and on `IBUF` alone (spec
20_memory.md R46; 10_state.md R12): the rule for each of the two things a meaning is made of, reading an operand and
completing, carries two runs that agree so far one step on.
-/

namespace Sys2Proof.Proofs

open Sys2Proof.Machine

/-! ## Answers that a reader of the results cannot tell apart -/

/-- The same refusal, or two next states with the same `OBUF`, result registers and flags. -/
def AnswersAlike (x y : Host.Outcome State Fault Refusal) : Prop :=
  (∃ r, x = .refused r ∧ y = .refused r) ∨
  (∃ s t : State, x = .next s ∧ y = .next t ∧ s.obuf = t.obuf ∧ s.res = t.res ∧ s.flags = t.flags)

/-- A completion writes `OBUF`, every result register and every flag, each from the ending and none from the state. -/
theorem complete_alike {s u : State} {E F : Ending} (h : E = F) :
    AnswersAlike (.next (s.complete E)) (.next (u.complete F)) := by
  subst h
  refine .inr ⟨_, _, rfl, rfl, ?_⟩
  cases E with
  | success out res csumOk dir => exact ⟨rfl, rfl, rfl⟩
  | failure e => exact ⟨rfl, rfl, rfl⟩

/-- An operand that both states hold in the same form `f` of a register's value is read alike: unwritten in both, or
the same value in both. -/
theorem needOperand_alike {α : Type} {f : α → Value} (inj : f.Injective) {o p : Option α} {r : OperandReg}
    {k l : α → Host.Outcome State Fault Refusal} (same : o.map f = p.map f) (h : ∀ v, AnswersAlike (k v) (l v)) :
    AnswersAlike (needOperand o r k) (needOperand p r l) := by
  obtain rfl : o = p := Option.map_injective inj same
  cases o with
  | none => exact .inl ⟨_, rfl, rfl⟩
  | some v => exact h v

/-! ## The forms in which a register's value is held -/

theorem value_byte_injective : Value.byte.Injective := fun _ _ => Value.byte.inj

theorem value_half_injective : Value.half.Injective := fun _ _ => Value.half.inj

theorem value_block_injective : Value.block.Injective := fun _ _ => Value.block.inj

/-! ## The operations -/

/-- Settles O53: each operation reads the registers of its row one by one and completes with an ending made of their
values and the bytes of `IBUF`. -/
theorem operationsDependOnlyOnTheirOperands : Obligations.OperationsDependOnlyOnTheirOperands := by
  intro i s u input same
  change AnswersAlike (exec i s) (exec i u)
  cases i with
  | csumAdd => exact complete_alike (by rw [input])
  | csumXor => exact complete_alike (by rw [input])
  | wdParse => exact complete_alike (by rw [input])
  | wlParse => exact complete_alike (by rw [input])
  | aesEnc =>
    refine needOperand_alike value_block_injective (same .key (by decide)) fun key => ?_
    refine needOperand_alike value_block_injective (same .iv (by decide)) fun iv => ?_
    exact complete_alike (by rw [input])
  | aesDec =>
    refine needOperand_alike value_block_injective (same .key (by decide)) fun key => ?_
    refine needOperand_alike value_block_injective (same .iv (by decide)) fun iv => ?_
    exact complete_alike (by rw [input])
  | wdBuild =>
    refine needOperand_alike value_byte_injective (same .sync (by decide)) fun sync => ?_
    refine needOperand_alike value_half_injective (same .feature (by decide)) fun feature => ?_
    refine needOperand_alike value_half_injective (same .cmdid (by decide)) fun cmdid => ?_
    exact complete_alike (by rw [input])
  | wdResp =>
    refine needOperand_alike value_half_injective (same .cmdid (by decide)) fun cmdid => ?_
    refine needOperand_alike value_byte_injective (same .seq (by decide)) fun seq => ?_
    refine needOperand_alike value_byte_injective (same .result (by decide)) fun result => ?_
    exact complete_alike (by rw [input])
  | wlBuild =>
    refine needOperand_alike value_half_injective (same .cmdid (by decide)) fun cmdid => ?_
    refine needOperand_alike value_byte_injective (same .crypto (by decide)) fun crypto => ?_
    refine needOperand_alike value_byte_injective (same .seq (by decide)) fun seq => ?_
    exact complete_alike (by rw [input])

end Sys2Proof.Proofs
end

section
/-!
PROOFS. The command byte and what it selects (spec 30_encoding.md R70, R72, R76; 60_exceptions.md R209): the decoder
and the encoder as inverses of each other, a command that selects no operation, and the command that stands for
another.
-/

namespace Sys2Proof.Proofs

open Sys2Proof.Machine

/-! ## The decoder and the encoder -/

theorem decode_encode (i : Instr) : decode (encode i) = .ok i := by cases i <;> rfl

theorem decode_eq_ok_iff {c : Byte} {i : Instr} : decode c = .ok i ↔ encode i = c where
  mp := Laws.encode_of_decode
  mpr h := h ▸ decode_encode i

/-- Settles O1: the decoder inverts the encoder, and each row of the table is the code of its operation. -/
theorem commandByteIsTheWholeOpcode : Obligations.CommandByteIsTheWholeOpcode :=
  ⟨fun _ _ => decode_eq_ok_iff, decode_encode .csumAdd, decode_encode .csumXor, decode_encode .aesEnc,
    decode_encode .aesDec, decode_encode .wdBuild, decode_encode .wdParse, decode_encode .wdResp,
    decode_encode .wlBuild, decode_encode .wlParse⟩

/-! ## A command byte that selects no operation -/

theorem encode_mem_codes (i : Instr) :
    encode i ∈ ([0x01, 0x02, 0x10, 0x11, 0x20, 0x21, 0x22, 0x30, 0x31] : List Byte) := by
  cases i <;> decide

/-- A start is enabled outside `BUSY` when every operand of the operation its code selects, if it selects one, is
written (R182, R183). -/
theorem hostAct_start_of_ready {s : State} {c : Byte} (notBusy : s.phase ≠ .busy)
    (ready : ∀ i, decode c = .ok i → s.opnd.ready i) : hostAct (.start c) s = .next (s.started c) := by
  refine (whenNotBusy_of_ne notBusy).trans ?_
  cases hd : decode c with
  | error e => rfl
  | ok i => simp only [OperandRegs.missing_eq_none.mpr (ready i hd)]

theorem runCommand_of_unassigned {c : Byte} (unassigned : ∀ i, decode c ≠ .ok i) (s : State) :
    runCommand c s = .next (s.complete (.failure .badOp)) := by
  cases hd : decode c with
  | error e => simp only [runCommand, hd]
  | ok i => exact absurd hd (unassigned i)

/-- However an operation ends, operands, `IBUF`, `OP` and the host's own stay. -/
theorem complete_frame (s : State) (E : Ending) : EngineFrame s (s.complete E) where
  opnd := State.complete_opnd s E
  ibuf := State.complete_ibuf s E
  ibufByte a := by rw [State.complete_ibuf]
  op := State.complete_op s E
  script := State.complete_script s E
  replies := State.complete_replies s E

/-- Settles O2: the nine codes are those of the operations, so a byte that is none of them decodes to none; its start
waits for no operand, and the engine's step on it is the error entry. -/
theorem unassignedCodeEndsInBadOp : Obligations.UnassignedCodeEndsInBadOp := by
  intro s c notACode
  have unassigned : ∀ i, decode c ≠ .ok i := fun i hi => notACode (decode_eq_ok_iff.mp hi ▸ encode_mem_codes i)
  refine ⟨fun notBusy => ⟨s.started c, ?start, rfl, rfl⟩, fun busy latched => ⟨s.failWith .badOp, ?run, ?_, ?_⟩⟩
  case start =>
    calc step (s.withTurn (.host (.start c)))
      _ = hostAct (.start c) s := step_of_host rfl
      _ = .next (s.started c) := hostAct_start_of_ready notBusy fun i hi => absurd hi (unassigned i)
  case run =>
    calc step (s.withTurn .engine)
      _ = engineStep s := step_of_engine rfl
      _ = runCommand c s := engineStep_of_busy busy latched
      _ = .next (s.failWith .badOp) := runCommand_of_unassigned unassigned s
  · exact failWith_failedWith s .badOp
  · exact complete_frame s (.failure .badOp)

/-! ## The command that stands for another -/

@[simp] theorem input_withInput (s : State) (B : List Byte) : (s.withInput B).input = B := Memory.bytes_load B

theorem answersAlike_next_iff {s t : State} :
    AnswersAlike (.next s) (.next t) ↔ s.obuf = t.obuf ∧ s.res = t.res ∧ s.flags = t.flags where
  mp h := by
    rcases h with ⟨r, refused, -⟩ | ⟨_, _, ⟨⟩, ⟨⟩, same⟩
    · cases refused
    · exact same
  mpr same := .inr ⟨s, t, rfl, rfl, same⟩

/-- The state in which a `WD_BUILD` does what `WD_RESP` with these `SEQ` and `RESULT` does in `s` (R76). -/
def expandedBuild (s : State) (seq result : Byte) : State :=
  { s.withInput ([seq, result] ++ s.input) with
    opnd := (s.opnd.set (.sync Config.params.syncP2H)).set (.feature Config.params.featureReply) }

theorem input_expandedBuild (s : State) (seq result : Byte) :
    (expandedBuild s seq result).input = [seq, result] ++ s.input := input_withInput s _

/-- The expansion ends as `WD_RESP` does: in a wired build of the same operands and payload. -/
theorem exec_wdBuild_expandedBuild {s : State} {cmdid : U16} (seq result : Byte) (hc : s.opnd.cmdid = some cmdid) :
    exec .wdBuild (expandedBuild s seq result) =
      .next ((expandedBuild s seq result).complete (wiredBuildEnding Config.params Config.params.syncP2H
        Config.params.featureReply cmdid ([seq, result] ++ s.input))) := by
  have build := exec_wdBuild (s := expandedBuild s seq result) rfl rfl hc
  rwa [input_expandedBuild] at build

/-- Settles O25: both commands complete with one and the same ending, from which alone the results come, and
`WD_RESP` completes from `s` itself, whose `SYNC` and `FEATURE` nothing has written. -/
theorem wdRespIsTheExpandedBuild : Obligations.WdRespIsTheExpandedBuild := by
  intro s cmdid seq result hc hs hr
  obtain ⟨obuf, res, flags⟩ := answersAlike_next_iff.mp (complete_alike (s := s) (u := expandedBuild s seq result) rfl)
  exact ⟨_, _, exec_wdResp hc hs hr, exec_wdBuild_expandedBuild seq result hc, obuf, res, flags,
    by rw [State.complete_opnd], by rw [State.complete_opnd]⟩

end Sys2Proof.Proofs
end

section
/-!
PROOFS. The checksum generator (spec 40_checksum.md R90 to R96): each checksum as a sum in the group it belongs to, what
that sum is of a concatenation, of a permutation and after one byte is replaced, and from these the laws and the two
operations.
-/

namespace Sys2Proof.Proofs

open Sys2Proof.Machine

/-! ## The additive checksum: the negated sum of the bytes -/

/-- The fold is the sum in the ring of bytes, and the complement plus one its negation (R93). -/
theorem csumAdd_eq_neg_sum (B : List Byte) : csumAdd B = -B.sum := by
  calc csumAdd B
    _ = -(B.foldl (· + ·) 0) := (BitVec.neg_eq_not_add _).symm
    _ = -B.sum := by rw [List.sum_eq_foldl]

@[simp] theorem csumAdd_nil : csumAdd [] = 0 := rfl

theorem csumAdd_append (X Y : List Byte) : csumAdd (X ++ Y) = csumAdd X + csumAdd Y := by
  simp only [csumAdd_eq_neg_sum, List.sum_append, neg_add]

theorem csumAdd_perm {X Y : List Byte} (h : X.Perm Y) : csumAdd X = csumAdd Y := by
  rw [csumAdd_eq_neg_sum, csumAdd_eq_neg_sum, h.sum_eq]

/-- One byte replaced shifts the checksum by the difference of the two bytes. -/
theorem csumAdd_set {B : List Byte} {i : Nat} (h : i < B.length) (b : Byte) :
    csumAdd (B.set i b) = csumAdd B + (byteAt B i - b) := by
  rw [csumAdd_eq_neg_sum, csumAdd_eq_neg_sum, List.sum_set', dif_pos h, byteAt_eq_getElem h]
  abel

/-- The spec's sum of naturals, reduced modulo 256, is the sum of bytes. -/
theorem toNat_sum_bytes (B : List Byte) : B.sum.toNat = byteSum B % 256 := by
  induction B with
  | nil => rfl
  | cons b B ih => simp only [List.sum_cons, BitVec.toNat_add, ih, byteSum, List.map_cons, Nat.add_mod_mod]

theorem csumAdd_toNat (B : List Byte) : (csumAdd B).toNat = (256 - byteSum B % 256) % 256 := by
  rw [csumAdd_eq_neg_sum, BitVec.toNat_neg, toNat_sum_bytes]

/-- R94: the checksum is the one byte that completes the sum to 0. -/
theorem eq_csumAdd_iff {B : List Byte} {c : Byte} : c = csumAdd B ↔ byteSum (B ++ [c]) % 256 = 0 := by
  calc c = csumAdd B
    _ ↔ -B.sum = c := by rw [csumAdd_eq_neg_sum, eq_comm]
    _ ↔ (B ++ [c]).sum = 0 := by rw [neg_eq_iff_add_eq_zero, List.sum_append, List.sum_singleton]
    _ ↔ byteSum (B ++ [c]) % 256 = 0 := by rw [← toNat_sum_bytes, ← BitVec.toNat_inj]; rfl

/-! ## The XOR checksum -/

@[simp] theorem csumXor_nil : csumXor [] = 0 := rfl

@[simp] theorem csumXor_singleton (b : Byte) : csumXor [b] = b := BitVec.zero_xor

theorem csumXor_cons (b : Byte) (B : List Byte) : csumXor (b :: B) = b ^^^ csumXor B := by
  rw [csumXor, List.foldl_cons, BitVec.xor_comm 0 b, List.foldl_assoc, csumXor]

theorem csumXor_append (X Y : List Byte) : csumXor (X ++ Y) = csumXor X ^^^ csumXor Y := by
  induction X with
  | nil => simp
  | cons b X ih => rw [List.cons_append, csumXor_cons, csumXor_cons, ih, BitVec.xor_assoc]

theorem csumXor_perm {X Y : List Byte} (h : X.Perm Y) : csumXor X = csumXor Y := by
  have : RightCommutative fun s b : Byte => s ^^^ b := ⟨fun s b c => by ac_rfl⟩
  exact h.foldl_eq 0

/-- One byte replaced shifts the checksum by the XOR difference of the two bytes. -/
theorem csumXor_set {B : List Byte} {i : Nat} (h : i < B.length) (b : Byte) :
    csumXor (B.set i b) = csumXor B ^^^ (byteAt B i ^^^ b) := by
  induction B generalizing i with
  | nil => cases h
  | cons a B ih =>
    cases i with
    | zero =>
      rw [List.set_cons_zero, byteAt_cons_zero, csumXor_cons, csumXor_cons]
      calc b ^^^ csumXor B
        _ = (a ^^^ a) ^^^ (b ^^^ csumXor B) := by rw [BitVec.xor_self, BitVec.zero_xor]
        _ = a ^^^ csumXor B ^^^ (a ^^^ b) := by ac_rfl
    | succ i =>
      rw [List.set_cons_succ, byteAt_cons_succ, csumXor_cons, csumXor_cons, ih (Nat.lt_of_succ_lt_succ h),
        BitVec.xor_assoc]

theorem decide_odd_succ (n : Nat) : decide ((n + 1) % 2 = 1) = !decide (n % 2 = 1) := by
  rw [← decide_not, decide_eq_decide]; omega

/-- Each bit of the fold is the parity of the bytes that have it set. -/
theorem csumXor_getLsbD (B : List Byte) (j : Nat) :
    (csumXor B).getLsbD j = decide ((B.filter (fun b => b.getLsbD j)).length % 2 = 1) := by
  induction B with
  | nil => simp
  | cons b B ih =>
    rw [csumXor_cons, BitVec.getLsbD_xor, ih]
    cases bit : b.getLsbD j with
    | false => rw [List.filter_cons_of_neg (by simp [bit]), Bool.false_xor]
    | true => rw [List.filter_cons_of_pos (by simp [bit]), List.length_cons, decide_odd_succ, Bool.true_xor]

/-- R95: the checksum is the one byte that completes the XOR to 0. -/
theorem eq_csumXor_iff {B : List Byte} {c : Byte} : c = csumXor B ↔ csumXor (B ++ [c]) = 0 := by
  calc c = csumXor B
    _ ↔ csumXor B ^^^ c = 0 := by rw [eq_comm, ← BitVec.xor_eq_zero_iff]; rfl
    _ ↔ csumXor (B ++ [c]) = 0 := by rw [csumXor_append, csumXor_singleton]

/-! ## The laws of R94 to R96 -/

/-- The byte three before the end, where a frame has its checksum, ends what comes before the terminator. -/
theorem take_length_sub_two {F : List Byte} (h : 3 ≤ F.length) :
    F.take (F.length - 2) = F.take (F.length - 3) ++ [byteAt F (F.length - 3)] := by
  have inside : F.length - 3 < F.length := by omega
  rw [show F.length - 2 = F.length - 3 + 1 by omega, List.take_succ_eq_append_getElem inside, byteAt_eq_getElem inside]

theorem wiredIntact_iff_byteSum {P : Params} {F : List Byte} (h : WiredWellFormed P F) :
    WiredIntact P F ↔ byteSum (F.take (F.length - 2)) % 256 = 0 := by
  have long := h.floor
  rw [wiredIntact_iff h, eq_comm, eq_csumAdd_iff, take_length_sub_two (by omega)]

/-- Settles O8: a changed byte shifts the checksum by its difference, which is not 0 for one byte and cancels for `+1`
and `-1` on two. -/
theorem additiveCheckLaw : Obligations.AdditiveCheckLaw := by
  refine ⟨fun B c => eq_csumAdd_iff, fun P F => wiredIntact_iff_byteSum, fun B i b hi changed same => ?one,
    fun B i j hi hj apart => ?two⟩
  case one =>
    rw [csumAdd_set hi, add_eq_left] at same
    exact changed (sub_eq_zero.mp same).symm
  case two =>
    have hj' : j < (B.set i (byteAt B i + 1)).length := by rwa [List.length_set]
    rw [csumAdd_set hj', csumAdd_set hi, byteAt_set hi, if_neg apart.symm]
    abel

/-- Settles O9: a changed byte shifts the checksum by its XOR difference, which is not 0 for one byte and cancels for
one difference on two. -/
theorem xorCheckLaw : Obligations.XorCheckLaw := by
  refine ⟨fun B c => eq_csumXor_iff, fun B i b hi changed same => ?one, fun B i j d hi hj apart => ?two⟩
  case one =>
    rw [csumXor_set hi] at same
    have noDifference : byteAt B i ^^^ b = 0 :=
      (BitVec.xor_right_inj (csumXor B)).mp (same.trans BitVec.xor_zero.symm)
    exact changed (BitVec.xor_eq_zero_iff.mp noDifference).symm
  case two =>
    have hj' : j < (B.set i (byteAt B i ^^^ d)).length := by rwa [List.length_set]
    have difference (x : Byte) : x ^^^ (x ^^^ d) = d := by rw [← BitVec.xor_assoc, BitVec.xor_self, BitVec.zero_xor]
    rw [csumXor_set hj', csumXor_set hi, byteAt_set hi, if_neg apart.symm, difference, difference, BitVec.xor_assoc,
      BitVec.xor_self, BitVec.xor_zero]

/-- Settles O10: both checksums are sums in a commutative group, and a sum of bytes reduces modulo 256. -/
theorem checksumsAreIncremental : Obligations.ChecksumsAreIncremental := by
  refine ⟨csumXor_append, fun X Y => ?_, fun X Y h => ⟨csumAdd_perm h, csumXor_perm h⟩⟩
  rw [csumAdd_append]
  exact BitVec.toNat_add ..

/-! ## The two operations -/

theorem complete_bytes_succeededWith (s : State) (out : List Byte) : SucceededWith out (s.complete (.bytes out)) where
  phase := rfl
  flags := rfl
  res := rfl
  output := State.output_succeedWith ..
  olen := State.olen_succeedWith ..

/-- Settles O5: the operation completes from every state, with the checksum of `IBUF` alone. -/
theorem csumAddWritesTheNegatedSum : Obligations.CsumAddWritesTheNegatedSum := fun s =>
  ⟨_, csumAdd s.input, exec_csumAdd s, csumAdd_toNat s.input, complete_bytes_succeededWith s _, complete_frame s _⟩

/-- Settles O6: the operation completes from every state, with the checksum of `IBUF` alone. -/
theorem csumXorWritesTheBitParities : Obligations.CsumXorWritesTheBitParities := fun s =>
  ⟨_, csumXor s.input, exec_csumXor s, fun j _ => csumXor_getLsbD s.input j, complete_bytes_succeededWith s _,
    complete_frame s _⟩

/-- Settles O7: both checksums of no bytes are the empty fold. -/
theorem checksumsOfTheEmptyInputAreZero : Obligations.ChecksumsOfTheEmptyInputAreZero := by
  intro s empty
  have add := exec_csumAdd s
  have xor := exec_csumXor s
  rw [empty, csumAdd_nil] at add
  rw [empty, csumXor_nil] at xor
  exact ⟨⟨_, add, complete_bytes_succeededWith s _⟩, ⟨_, xor, complete_bytes_succeededWith s _⟩⟩

end Sys2Proof.Proofs
end

section
/-!
PROOFS. The AES-128 block cipher (spec 41_aes_block.md R100 to R116): the S-box as the affine image of the field
inverse, the key schedule as a recurrence, each step of a round undone by its inverse, and from these the two block
functions as inverse to each other.
-/

namespace Sys2Proof.Proofs

open Sys2Proof.Machine

/-! ## The S-box (R103, R104) -/

theorem isbox_sbox (a : Byte) : isbox (sbox a) = a := by
  revert a; decide +kernel

theorem sbox_isbox (a : Byte) : sbox (isbox a) = a := by
  revert a; decide +kernel

/-- The affine map of R103, its bit indices modulo 8 written as rotations. -/
def sboxAffine (x : Byte) : Byte :=
  x ^^^ x.rotateRight 4 ^^^ x.rotateRight 5 ^^^ x.rotateRight 6 ^^^ x.rotateRight 7 ^^^ 0x63

/-- The affine map that undoes the one of R103. -/
def sboxAffineInverse (y : Byte) : Byte :=
  y.rotateRight 2 ^^^ y.rotateRight 5 ^^^ y.rotateRight 7 ^^^ 0x05

theorem sboxAffine_sboxAffineInverse (y : Byte) : sboxAffine (sboxAffineInverse y) = y := by
  revert y; decide +kernel

theorem getLsbD_rotateRight_byte (x : Byte) {i k : Nat} (hi : i < 8) (hk : k < 8) :
    (x.rotateRight k).getLsbD i = x.getLsbD ((i + k) % 8) := by
  rw [BitVec.getLsbD_rotateRight, Nat.mod_eq_of_lt hk, Bool.cond_decide]
  split
  · next noWrap => rw [Nat.mod_eq_of_lt (by omega), Nat.add_comm]
  · next wraps =>
    have wrapped : (i + k) % 8 = i - (8 - k) := by omega
    rw [wrapped, decide_eq_true hi, Bool.true_and]

theorem getLsbD_sboxAffine (x : Byte) {i : Nat} (hi : i < 8) :
    (sboxAffine x).getLsbD i =
      (x.getLsbD i ^^ x.getLsbD ((i + 4) % 8) ^^ x.getLsbD ((i + 5) % 8) ^^ x.getLsbD ((i + 6) % 8) ^^
        x.getLsbD ((i + 7) % 8) ^^ (0x63 : Byte).getLsbD i) := by
  simp only [sboxAffine, BitVec.getLsbD_xor, getLsbD_rotateRight_byte x hi, Nat.reduceLT]

/-- The table entry of `a` before the affine map. -/
def sboxInverse (a : Byte) : Byte := sboxAffineInverse (sbox a)

theorem sbox_eq_sboxAffine (a : Byte) : sbox a = sboxAffine (sboxInverse a) :=
  (sboxAffine_sboxAffineInverse (sbox a)).symm

theorem sboxInverse_zero : sboxInverse 0 = 0 := by decide +kernel

/-- The table holds the inverses of the field's units. -/
theorem gmul_sboxInverse (a : Byte) : a ≠ 0 → gmul a (sboxInverse a) = 1 := by
  revert a; decide +kernel

/-- Settles O12: undoing the affine map on the table's entry of a byte gives the byte's inverse in the field. -/
theorem sboxIsTheAffineImageOfTheInverse : Obligations.SboxIsTheAffineImageOfTheInverse := by
  refine ⟨fun a => ⟨sboxInverse a, fun zero => ?_, gmul_sboxInverse a, fun i hi => ?_⟩,
    fun a => ⟨isbox_sbox a, sbox_isbox a⟩⟩
  · rw [zero, sboxInverse_zero]
  · rw [sbox_eq_sboxAffine, getLsbD_sboxAffine _ hi]

/-! ## The key schedule (R106) -/

/-- R106's recurrence, on words written oldest first. -/
def FollowsSchedule (w : List Word4) : Prop :=
  ∀ i, 4 ≤ i → i < w.length →
    w.getD i default = Word4.xor (w.getD (i - 4) default) (scheduleTemp i (w.getD (i - 1) default))

theorem followsSchedule_of_length_le {w : List Word4} (h : w.length ≤ 4) : FollowsSchedule w :=
  fun _ four lt => absurd (lt.trans_le h) four.not_gt

/-- The words of R106 stay a schedule when the next one is computed from them. -/
theorem FollowsSchedule.concat {w : List Word4} (hw : FollowsSchedule w) :
    FollowsSchedule (w ++ [Word4.xor (w.getD (w.length - 4) default)
      (scheduleTemp w.length (w.getD (w.length - 1) default))]) := by
  intro i four lt
  rw [List.length_append, List.length_singleton] at lt
  rw [List.getD_append _ _ _ (i - 4) (by omega), List.getD_append _ _ _ (i - 1) (by omega)]
  rcases Nat.lt_succ_iff_lt_or_eq.mp lt with old | rfl
  · rw [List.getD_append _ _ _ i old, hw i four old]
  · rw [List.getD_append_right _ _ _ _ le_rfl, Nat.sub_self, List.getD_cons_zero]

@[simp] theorem length_scheduleLoop (n i : Nat) (ws : List Word4) :
    (scheduleLoop n i ws).length = ws.length + n := by
  induction n generalizing i ws with
  | zero => rfl
  | succ n ih => rw [scheduleLoop, ih, List.length_cons]; omega

/-- The loop puts new words in front and leaves the old ones as they are. -/
theorem suffix_scheduleLoop (n i : Nat) (ws : List Word4) : ws <:+ scheduleLoop n i ws := by
  induction n generalizing i ws with
  | zero => exact List.suffix_rfl
  | succ n ih => exact (List.suffix_cons _ ws).trans (ih ..)

theorem followsSchedule_scheduleLoop (n : Nat) {ws : List Word4} (h : 4 ≤ ws.length)
    (hw : FollowsSchedule ws.reverse) : FollowsSchedule (scheduleLoop n ws.length ws).reverse := by
  induction n generalizing ws with
  | zero => exact hw
  | succ n ih =>
    have fourBack : ws.reverse.getD (ws.length - 4) default = ws.getD 3 default := by
      rw [List.getD_reverse _ (by omega)]; congr 1; omega
    have oneBack : ws.reverse.getD (ws.length - 1) default = ws.getD 0 default := by
      rw [List.getD_reverse _ (by omega)]; congr 1; omega
    have next := hw.concat
    rw [List.length_reverse, fourBack, oneBack, ← List.reverse_cons] at next
    exact ih (ws := _ :: ws) (Nat.le_succ_of_le h) next

/-- The four words R106's loop starts from, newest first. -/
def keyWords (k : Block) : List Word4 :=
  [⟨k.b12, k.b13, k.b14, k.b15⟩, ⟨k.b8, k.b9, k.b10, k.b11⟩, ⟨k.b4, k.b5, k.b6, k.b7⟩, ⟨k.b0, k.b1, k.b2, k.b3⟩]

@[simp] theorem length_keyWords (k : Block) : (keyWords k).length = 4 := rfl

theorem keyExpansion_eq (k : Block) :
    keyExpansion k = (scheduleLoop 40 (keyWords k).length (keyWords k)).reverse := rfl

@[simp] theorem length_keyExpansion (k : Block) : (keyExpansion k).length = 44 := by
  simp [keyExpansion_eq]

theorem followsSchedule_keyExpansion (k : Block) : FollowsSchedule (keyExpansion k) := by
  have start : FollowsSchedule (keyWords k).reverse := followsSchedule_of_length_le (by simp)
  rw [keyExpansion_eq]
  exact followsSchedule_scheduleLoop 40 (length_keyWords k).ge start

theorem roundKey_keyExpansion_zero (k : Block) : roundKey (keyExpansion k) 0 = k := by
  obtain ⟨derived, inPlace⟩ := suffix_scheduleLoop 40 (keyWords k).length (keyWords k)
  rw [keyExpansion_eq, ← inPlace, List.reverse_append]
  rfl

/-- Settles O13: every round of the loop keeps the words a schedule and leaves the key's words in place. -/
theorem keyExpansionFollowsTheRecurrence : Obligations.KeyExpansionFollowsTheRecurrence := by
  refine fun k => ⟨length_keyExpansion k, roundKey_keyExpansion_zero k, fun i four lt => ?_⟩
  exact followsSchedule_keyExpansion k i four (by rwa [length_keyExpansion])

/-! ## The columns (R110, R114)

Both column functions are matrices over the field whose rows are rotations of the first one. Such a map is fixed by
what it does to columns with at most one byte other than 0. -/

/-- A map of columns that is linear over exclusive or and commutes with rotation. -/
structure Circulant (f : Word4 → Word4) : Prop where
  xor (x y : Word4) : f (Word4.xor x y) = Word4.xor (f x) (f y)
  rot (x : Word4) : f (rotWord x) = rotWord (f x)

theorem Circulant.comp {f g : Word4 → Word4} (hf : Circulant f) (hg : Circulant g) : Circulant (f ∘ g) where
  xor x y := by simp only [Function.comp_apply, hg.xor, hf.xor]
  rot x := by simp only [Function.comp_apply, hg.rot, hf.rot]

/-- A column as the exclusive or of rotated one-byte columns. -/
theorem word4_eq_xor_rotations (a b c d : Byte) :
    (⟨a, b, c, d⟩ : Word4) =
      Word4.xor (Word4.xor ⟨a, 0, 0, 0⟩ (rotWord (rotWord (rotWord ⟨b, 0, 0, 0⟩))))
        (Word4.xor (rotWord (rotWord ⟨c, 0, 0, 0⟩)) (rotWord ⟨d, 0, 0, 0⟩)) := by
  simp [Word4.xor, rotWord]

theorem Circulant.eq_self {f : Word4 → Word4} (hf : Circulant f)
    (oneByte : ∀ a : Byte, f ⟨a, 0, 0, 0⟩ = ⟨a, 0, 0, 0⟩) (x : Word4) : f x = x := by
  obtain ⟨a, b, c, d⟩ := x
  rw [word4_eq_xor_rotations]
  simp only [hf.xor, hf.rot, oneByte]

/-- Multiplication is additive in its left factor. -/
theorem gmul_xor (a a' b : Byte) : gmul (a ^^^ a') b = gmul a b ^^^ gmul a' b :=
  gmulLoop_xor 8 0 0 a a' b

theorem gmul_one (a : Byte) : gmul a 1 = a := by
  simp [gmul, gmulLoop]

/-- The product of a column with the matrix whose rows are the rotations of `p q r s`. -/
def mulCirculant (p q r s : Byte) (a : Word4) : Word4 :=
  ⟨gmul a.a0 p ^^^ gmul a.a1 q ^^^ gmul a.a2 r ^^^ gmul a.a3 s,
    gmul a.a0 s ^^^ gmul a.a1 p ^^^ gmul a.a2 q ^^^ gmul a.a3 r,
    gmul a.a0 r ^^^ gmul a.a1 s ^^^ gmul a.a2 p ^^^ gmul a.a3 q,
    gmul a.a0 q ^^^ gmul a.a1 r ^^^ gmul a.a2 s ^^^ gmul a.a3 p⟩

theorem circulant_mulCirculant (p q r s : Byte) : Circulant (mulCirculant p q r s) where
  xor x y := by
    simp only [mulCirculant, Word4.xor, gmul_xor, Word4.mk.injEq]
    refine ⟨?_, ?_, ?_, ?_⟩ <;> ac_rfl
  rot x := by
    simp only [mulCirculant, rotWord, Word4.mk.injEq]
    refine ⟨?_, ?_, ?_, ?_⟩ <;> ac_rfl

theorem mixColumn_eq_mulCirculant : mixColumn = mulCirculant 2 3 1 1 := by
  funext a
  simp only [mixColumn, mulCirculant, gmul_one]

theorem circulant_mixColumn : Circulant mixColumn :=
  mixColumn_eq_mulCirculant ▸ circulant_mulCirculant ..

theorem invMixColumn_eq_mulCirculant : invMixColumn = mulCirculant 0x0E 0x0B 0x0D 0x09 := rfl

theorem circulant_invMixColumn : Circulant invMixColumn :=
  invMixColumn_eq_mulCirculant ▸ circulant_mulCirculant ..

theorem invMixColumn_mixColumn (x : Word4) : invMixColumn (mixColumn x) = x := by
  have oneByte : ∀ a : Byte, invMixColumn (mixColumn ⟨a, 0, 0, 0⟩) = ⟨a, 0, 0, 0⟩ := by decide +kernel
  exact (circulant_invMixColumn.comp circulant_mixColumn).eq_self oneByte x

theorem mixColumn_invMixColumn (x : Word4) : mixColumn (invMixColumn x) = x := by
  have oneByte : ∀ a : Byte, mixColumn (invMixColumn ⟨a, 0, 0, 0⟩) = ⟨a, 0, 0, 0⟩ := by decide +kernel
  exact (circulant_mixColumn.comp circulant_invMixColumn).eq_self oneByte x

/-! ## The steps of a round and their inverses (R107 to R114) -/

theorem mapBytes_mapBytes {f g : Byte → Byte} (undo : ∀ a, f (g a) = a) (x : Block) :
    mapBytes f (mapBytes g x) = x := by
  simp only [mapBytes, undo]

theorem mapColumns_mapColumns {f g : Word4 → Word4} (undo : ∀ a, f (g a) = a) (x : Block) :
    mapColumns f (mapColumns g x) = x := by
  simp only [mapColumns, blockOfColumns, undo]

@[simp] theorem invSubBytes_subBytes (x : Block) : invSubBytes (subBytes x) = x := mapBytes_mapBytes isbox_sbox x

@[simp] theorem subBytes_invSubBytes (x : Block) : subBytes (invSubBytes x) = x := mapBytes_mapBytes sbox_isbox x

@[simp] theorem invShiftRows_shiftRows (x : Block) : invShiftRows (shiftRows x) = x := rfl

@[simp] theorem shiftRows_invShiftRows (x : Block) : shiftRows (invShiftRows x) = x := rfl

@[simp] theorem invMixColumns_mixColumns (x : Block) : invMixColumns (mixColumns x) = x :=
  mapColumns_mapColumns invMixColumn_mixColumn x

@[simp] theorem mixColumns_invMixColumns (x : Block) : mixColumns (invMixColumns x) = x :=
  mapColumns_mapColumns mixColumn_invMixColumn x

@[simp] theorem addRoundKey_addRoundKey (x k : Block) : addRoundKey (addRoundKey x k) k = x :=
  Block.xor_xor_cancel x k

/-! ## Rounds and blocks (R111, R115, R116)

The two ciphers cut their rounds at different places: between the rounds, the decryption's state is the encryption's
with the bytes substituted and the rows shifted. -/

/-- The first two steps of an encryption round, and all but the key of the last one. -/
def substituteShift (x : Block) : Block := shiftRows (subBytes x)

/-- The first two steps of a decryption round. -/
def invShiftSubstitute (x : Block) : Block := invSubBytes (invShiftRows x)

@[simp] theorem invShiftSubstitute_substituteShift (x : Block) : invShiftSubstitute (substituteShift x) = x := by
  simp [invShiftSubstitute, substituteShift]

@[simp] theorem substituteShift_invShiftSubstitute (x : Block) : substituteShift (invShiftSubstitute x) = x := by
  simp [invShiftSubstitute, substituteShift]

theorem encRound_eq (w : List Word4) (x : Block) (r : Nat) :
    encRound w x r = addRoundKey (mixColumns (substituteShift x)) (roundKey w r) := rfl

theorem decRound_eq (w : List Word4) (x : Block) (r : Nat) :
    decRound w x r = invMixColumns (addRoundKey (invShiftSubstitute x) (roundKey w r)) := rfl

theorem decRound_undoes_encRound (w : List Word4) (x : Block) (r : Nat) :
    decRound w (substituteShift (encRound w x r)) r = substituteShift x := by
  simp [encRound_eq, decRound_eq]

theorem encRound_undoes_decRound (w : List Word4) (x : Block) (r : Nat) :
    encRound w (invShiftSubstitute (decRound w x r)) r = invShiftSubstitute x := by
  simp [encRound_eq, decRound_eq]

/-- When one backward round undoes one forward round, seen through `g`, all of them in the opposite order undo all of
them. -/
theorem foldl_reverse_undoes_foldl {α β : Type} {forward backward : α → β → α} {g : α → α}
    (undo : ∀ x r, backward (g (forward x r)) r = g x) (rs : List β) (x : α) :
    rs.reverse.foldl backward (g (rs.foldl forward x)) = g x := by
  induction rs generalizing x with
  | nil => rfl
  | cons r rs ih => 
    rw [List.reverse_cons, List.foldl_append, List.foldl_cons, List.foldl_nil, List.foldl_cons, ih, undo]

theorem decRounds_encRounds (w : List Word4) (x : Block) :
    [9, 8, 7, 6, 5, 4, 3, 2, 1].foldl (decRound w)
      (substituteShift ([1, 2, 3, 4, 5, 6, 7, 8, 9].foldl (encRound w) x)) = substituteShift x :=
  foldl_reverse_undoes_foldl (decRound_undoes_encRound w) [1, 2, 3, 4, 5, 6, 7, 8, 9] x

theorem encRounds_decRounds (w : List Word4) (x : Block) :
    [1, 2, 3, 4, 5, 6, 7, 8, 9].foldl (encRound w)
      (invShiftSubstitute ([9, 8, 7, 6, 5, 4, 3, 2, 1].foldl (decRound w) x)) = invShiftSubstitute x :=
  foldl_reverse_undoes_foldl (encRound_undoes_decRound w) [9, 8, 7, 6, 5, 4, 3, 2, 1] x

theorem aesEncBlock_eq (k b : Block) :
    aesEncBlock k b =
      addRoundKey (substituteShift ([1, 2, 3, 4, 5, 6, 7, 8, 9].foldl (encRound (keyExpansion k))
        (addRoundKey b (roundKey (keyExpansion k) 0)))) (roundKey (keyExpansion k) 10) := rfl

theorem aesDecBlock_eq (k b : Block) :
    aesDecBlock k b =
      addRoundKey (invShiftSubstitute ([9, 8, 7, 6, 5, 4, 3, 2, 1].foldl (decRound (keyExpansion k))
        (addRoundKey b (roundKey (keyExpansion k) 10)))) (roundKey (keyExpansion k) 0) := rfl

theorem aesDecBlock_aesEncBlock (k b : Block) : aesDecBlock k (aesEncBlock k b) = b := by
  rw [aesDecBlock_eq, aesEncBlock_eq, addRoundKey_addRoundKey, decRounds_encRounds,
    invShiftSubstitute_substituteShift, addRoundKey_addRoundKey]

theorem aesEncBlock_aesDecBlock (k b : Block) : aesEncBlock k (aesDecBlock k b) = b := by
  rw [aesEncBlock_eq, aesDecBlock_eq, addRoundKey_addRoundKey, encRounds_decRounds,
    substituteShift_invShiftSubstitute, addRoundKey_addRoundKey]

/-- Settles O11: the outermost round keys cancel, the nine rounds undo each other in the opposite order, and so do the
steps outside them. -/
theorem aesBlockFunctionsAreInverse : Obligations.AesBlockFunctionsAreInverse :=
  fun k b => ⟨aesDecBlock_aesEncBlock k b, aesEncBlock_aesDecBlock k b⟩

end Sys2Proof.Proofs
end

section
/-!
PROOFS. CBC with PKCS#7 padding and the operations `AES_ENC` and `AES_DEC` (spec 42_aes_cbc.md R120 to R129): the
padding and its soft removal, the two chains as one block function applied along a sequence and its predecessors, and
from these the round trip, the lengths and the propagation of a changed byte.
-/

namespace Sys2Proof.Proofs

open Sys2Proof.Machine

/-! ## The soft padding removal (R123, R127) -/

@[simp] theorem unpadSoft_nil : unpadSoft [] = [] := rfl

/-- The branches of the removal, for a message whose last byte is known. -/
theorem unpadSoft_of_getLast? {D : List Byte} {last : Byte} (h : D.getLast? = some last) :
    unpadSoft D = if 1 ≤ last.toNat ∧ last.toNat ≤ D.length ∧
        (D.drop (D.length - last.toNat)).all (fun b => b == last) then D.take (D.length - last.toNat) else D := by
  rw [unpadSoft, h]

/-- A pad of any length that a byte can name is stripped, however it compares with 16. -/
theorem unpadSoft_append_pad (E : List Byte) {p : Nat} (one : 1 ≤ p) (cap : p ≤ 255) :
    unpadSoft (E ++ List.replicate p (BitVec.ofNat 8 p)) = E := by
  have names : (BitVec.ofNat 8 p).toNat = p := Nat.mod_eq_of_lt (by omega)
  have last : (E ++ List.replicate p (BitVec.ofNat 8 p)).getLast? = some (BitVec.ofNat 8 p) := by
    rw [List.getLast?_append, List.getLast?_replicate, if_neg (by omega), Option.some_or]
  have start : (E ++ List.replicate p (BitVec.ofNat 8 p)).length - p = E.length := by simp
  rw [unpadSoft_of_getLast? last, names, start, List.drop_left, List.take_left]
  exact if_pos ⟨one, by simp, by simp⟩

/-- What the removal strips is a whole pad. -/
theorem unpadSoft_eq_self_or_append_pad (D : List Byte) :
    unpadSoft D = D ∨ ∃ p, 1 ≤ p ∧ p ≤ 255 ∧ D = unpadSoft D ++ List.replicate p (BitVec.ofNat 8 p) := by
  cases hl : D.getLast? with
  | none => rw [List.getLast?_eq_none_iff.mp hl]; exact .inl unpadSoft_nil
  | some last =>
    rw [unpadSoft_of_getLast? hl]
    split
    next pad =>
      obtain ⟨one, short, same⟩ := pad
      have tail : D.drop (D.length - last.toNat) = List.replicate last.toNat last :=
        List.eq_replicate_iff.mpr ⟨by rw [List.length_drop]; omega, by simpa using same⟩
      refine .inr ⟨last.toNat, one, Nat.le_of_lt_succ last.isLt, ?_⟩
      rw [BitVec.ofNat_toNat, BitVec.setWidth_eq, ← tail, List.take_append_drop]
    next => exact .inl rfl

/-- Settles O18: a whole pad is stripped, and nothing else is. -/
theorem softUnpadStripsExactlyAWholePad : Obligations.SoftUnpadStripsExactlyAWholePad := by
  refine ⟨fun E p one cap => unpadSoft_append_pad E one cap, fun D noPad => ?_⟩
  rcases unpadSoft_eq_self_or_append_pad D with whole | ⟨p, one, cap, pad⟩
  · exact whole
  · exact absurd pad (noPad _ p one cap)

/-- The pad of R120 has 1 to 16 bytes. -/
@[simp] theorem unpadSoft_pkcs7Pad (B : List Byte) : unpadSoft (pkcs7Pad B) = B :=
  unpadSoft_append_pad B (p := 16 - B.length % 16) (by omega) (by omega)

/-! ## The blocks of a byte sequence -/

/-- Block `i` of a byte sequence, its bytes from `16 * i` on. -/
def blockAt (B : List Byte) (i : Nat) : Block := Block.ofBytes (B.drop (16 * i))

theorem getElem_blocksOf {m i : Nat} {B : List Byte} (h : i < (blocksOf m B).length) :
    (blocksOf m B)[i] = blockAt B i := by
  rw [List.getElem_eq_iff]
  exact blocksOf_getElem? m B i (by simpa using h)

theorem blockAt_flatMap {bs : List Block} {i : Nat} (h : i < bs.length) :
    blockAt (bs.flatMap Block.bytes) i = bs[i] := by
  have cut := blocksOf_getElem? bs.length (bs.flatMap Block.bytes) i h
  rw [blocksOf_flatMap, List.getElem?_eq_getElem h] at cut
  exact (Option.some.inj cut).symm

/-- The block before block `i`, the iv where there is none (R122, R125). -/
theorem getElem_cons_eq_ite (iv : Block) {bs : List Block} {X : List Byte} {i : Nat} (h : i < (iv :: bs).length)
    (blocks : ∀ k (hk : k < bs.length), bs[k] = blockAt X k) :
    (iv :: bs)[i] = if i = 0 then iv else blockAt X (i - 1) := by
  rw [List.getElem_cons]
  split
  · rfl
  · exact blocks ..

theorem byteAt_bytes_ofBytes (B : List Byte) {k : Nat} (h : k < 16) :
    byteAt (Block.ofBytes B).bytes k = byteAt B k := by
  interval_cases k <;> rfl

theorem ofBytes_congr {X Y : List Byte} (h : ∀ k < 16, byteAt X k = byteAt Y k) :
    Block.ofBytes X = Block.ofBytes Y := by
  simp only [Block.ofBytes, h, Nat.reduceLT]

theorem byteAt_bytes_blockAt (B : List Byte) (i : Nat) {k : Nat} (h : k < 16) :
    byteAt (blockAt B i).bytes k = byteAt B (16 * i + k) := by
  rw [blockAt, byteAt_bytes_ofBytes _ h, byteAt_drop]

/-- A byte of a sequence, found in the block that holds it. -/
theorem byteAt_eq_byteAt_blockAt (B : List Byte) (p : Nat) :
    byteAt B p = byteAt (blockAt B (p / 16)).bytes (p % 16) := by
  rw [byteAt_bytes_blockAt B _ (Nat.mod_lt _ (by decide)), Nat.div_add_mod]

theorem byteAt_bytes_xor (x y : Block) {k : Nat} (h : k < 16) :
    byteAt (Block.xor x y).bytes k = byteAt x.bytes k ^^^ byteAt y.bytes k := by
  interval_cases k <;> rfl

/-- A byte changed in block `i` leaves every other block. -/
theorem blockAt_set_of_ne {C : List Byte} {i j k : Nat} (hi : 16 * i + 16 ≤ C.length) (hj : j < 16) (hk : k ≠ i)
    (b : Byte) : blockAt (C.set (16 * i + j) b) k = blockAt C k := by
  refine ofBytes_congr fun n hn => ?_
  rw [byteAt_drop, byteAt_drop, byteAt_set (by omega), if_neg (by omega)]

/-- A byte changed in block `i` changes that block. -/
theorem blockAt_set_ne {C : List Byte} {i j : Nat} (hi : 16 * i + 16 ≤ C.length) (hj : j < 16) {b : Byte}
    (changed : b ≠ byteAt C (16 * i + j)) : blockAt (C.set (16 * i + j) b) i ≠ blockAt C i := by
  intro same
  have byte := congrArg (fun x : Block => byteAt x.bytes j) same
  rw [byteAt_bytes_blockAt _ _ hj, byteAt_bytes_blockAt _ _ hj, byteAt_set (by omega), if_pos rfl] at byte
  exact changed byte

/-! ## The two chains (R122, R125)

Each block of a chain is one function of a block of the input and of the ciphertext block before it, so a chain is
that function applied along two sequences, the second one shifted by the iv. -/

theorem chainEnc_eq_zipWith (key iv : Block) (ms : List Block) :
    chainEnc key iv ms =
      List.zipWith (fun m prev => aesEncBlock key (Block.xor m prev)) ms (iv :: chainEnc key iv ms) := by
  induction ms generalizing iv with
  | nil => rfl
  | cons m ms ih => rw [chainEnc, List.zipWith_cons_cons, ← ih]

theorem chainDec_eq_zipWith (key iv : Block) (cs : List Block) :
    chainDec key iv cs = List.zipWith (fun c prev => Block.xor (aesDecBlock key c) prev) cs (iv :: cs) := by
  induction cs generalizing iv with
  | nil => rfl
  | cons c cs ih => rw [chainDec, List.zipWith_cons_cons, ih]

theorem chainDec_chainEnc (key iv : Block) (ms : List Block) : chainDec key iv (chainEnc key iv ms) = ms := by
  induction ms generalizing iv with
  | nil => rfl
  | cons m ms ih => rw [chainEnc, chainDec, ih, aesDecBlock_aesEncBlock, Block.xor_xor_cancel]

/-- Each block of an encryption is the encryption of a padded block exclusive or the ciphertext block before it. -/
theorem blockAt_aesCbcEnc (B : List Byte) (key iv : Block) {i : Nat} (h : i < B.length / 16 + 1) :
    blockAt (aesCbcEnc B key iv) i =
      aesEncBlock key (Block.xor (blockAt (pkcs7Pad B) i)
        (if i = 0 then iv else blockAt (aesCbcEnc B key iv) (i - 1))) := by
  have padded : (pkcs7Pad B).length / 16 = B.length / 16 + 1 := by rw [length_pkcs7Pad]; omega
  have chain := chainEnc_eq_zipWith key iv (blocksOf ((pkcs7Pad B).length / 16) (pkcs7Pad B))
  rw [aesCbcEnc, blockAt_flatMap (by simpa [padded] using h), List.getElem_of_eq chain, List.getElem_zipWith,
    getElem_blocksOf, getElem_cons_eq_ite iv _ fun k hk => (blockAt_flatMap hk).symm]

/-- Each block of the decrypted message is a decrypted block exclusive or the ciphertext block before it. -/
theorem blockAt_aesCbcUnchain (C : List Byte) (key iv : Block) {i : Nat} (h : i < C.length / 16) :
    blockAt (aesCbcUnchain C key iv) i =
      Block.xor (aesDecBlock key (blockAt C i)) (if i = 0 then iv else blockAt C (i - 1)) := by
  have chain := chainDec_eq_zipWith key iv (blocksOf (C.length / 16) C)
  rw [aesCbcUnchain, blockAt_flatMap (by simpa using h), List.getElem_of_eq chain, List.getElem_zipWith,
    getElem_blocksOf, getElem_cons_eq_ite iv _ fun k hk => getElem_blocksOf hk]

theorem length_aesCbcUnchain {C : List Byte} (whole : C.length % 16 = 0) (key iv : Block) :
    (aesCbcUnchain C key iv).length = C.length := by
  simp only [aesCbcUnchain, length_flatMap_blockBytes, length_chainDec, length_blocksOf]; omega

/-! ## The round trip (R126) -/

theorem aesCbcUnchain_flatMap (cs : List Block) (key iv : Block) :
    aesCbcUnchain (cs.flatMap Block.bytes) key iv = (chainDec key iv cs).flatMap Block.bytes := by
  rw [aesCbcUnchain, length_flatMap_blockBytes, Nat.mul_div_cancel_left _ (by decide), blocksOf_flatMap]

theorem aesCbcUnchain_aesCbcEnc (B : List Byte) (key iv : Block) :
    aesCbcUnchain (aesCbcEnc B key iv) key iv = pkcs7Pad B := by
  have padded := length_pkcs7Pad B
  rw [aesCbcEnc, aesCbcUnchain_flatMap, chainDec_chainEnc, flatMap_blocksOf _ _ (by omega)]

theorem aesCbcDec_of_whole {C : List Byte} (whole : C.length % 16 = 0) (key iv : Block) :
    aesCbcDec C key iv = .ok (unpadSoft (aesCbcUnchain C key iv)) :=
  if_neg (not_not.mpr whole)

theorem length_aesCbcEnc_mod (B : List Byte) (key iv : Block) : (aesCbcEnc B key iv).length % 16 = 0 := by
  rw [length_aesCbcEnc, Nat.mul_mod_right]

theorem aesCbcDec_aesCbcEnc (B : List Byte) (key iv : Block) : aesCbcDec (aesCbcEnc B key iv) key iv = .ok B := by
  rw [aesCbcDec_of_whole (length_aesCbcEnc_mod ..), aesCbcUnchain_aesCbcEnc, unpadSoft_pkcs7Pad]

/-! ## The two operations (R121, R124) -/

theorem exec_aesEnc_of_fits {s : State} {key iv : Block} (hk : s.opnd.key = some key) (hv : s.opnd.iv = some iv)
    (fits : 16 * (s.input.length / 16 + 1) ≤ Config.params.bufCap) :
    exec .aesEnc s = .next (s.complete (.bytes (aesCbcEnc s.input key iv))) := by
  rw [exec_aesEnc hk hv, aesEncEnding_of_fits fits]

theorem exec_aesDec_of_whole {s : State} {key iv : Block} (hk : s.opnd.key = some key) (hv : s.opnd.iv = some iv)
    (whole : s.input.length % 16 = 0) :
    exec .aesDec s = .next (s.complete (.bytes (unpadSoft (aesCbcUnchain s.input key iv)))) := by
  rw [exec_aesDec hk hv, aesDecEnding_of_whole whole]

theorem exec_aesDec_of_ciphertext {s : State} {B : List Byte} {key iv : Block} (hk : s.opnd.key = some key)
    (hv : s.opnd.iv = some iv) (input : s.input = aesCbcEnc B key iv) :
    exec .aesDec s = .next (s.complete (.bytes B)) := by
  rw [exec_aesDec_of_whole hk hv (input ▸ length_aesCbcEnc_mod ..), input, aesCbcUnchain_aesCbcEnc,
    unpadSoft_pkcs7Pad]

/-- Settles O19: each block's decryption undoes its encryption under the same predecessor, and the pad is one that the
removal strips; `AES_ENC` leaves `KEY` and `IV` to the `AES_DEC` that follows. -/
theorem cbcRoundTrip : Obligations.CbcRoundTrip := by
  refine ⟨aesCbcDec_aesCbcEnc, fun s key iv hk hv fits => ?_⟩
  exact ⟨_, _, _, exec_aesEnc_of_fits hk hv fits, State.output_succeedWith ..,
    exec_aesDec_of_ciphertext hk hv (input_withInput ..), complete_bytes_succeededWith ..⟩

/-- Settles O14: block by block, the chain that `AES_ENC` completes with. -/
theorem aesEncChainsThePaddedInput : Obligations.AesEncChainsThePaddedInput := fun s key iv hk hv fits =>
  ⟨_, aesCbcEnc s.input key iv, exec_aesEnc_of_fits hk hv fits, complete_bytes_succeededWith .., complete_frame ..,
    length_aesCbcEnc .., fun _ hi => blockAt_aesCbcEnc s.input key iv hi⟩

/-- Settles O16: block by block, the chain whose soft unpadding `AES_DEC` completes with. -/
theorem aesDecUnchainsAndUnpads : Obligations.AesDecUnchainsAndUnpads := fun s key iv hk hv whole =>
  ⟨_, aesCbcUnchain s.input key iv, exec_aesDec_of_whole hk hv whole, complete_bytes_succeededWith ..,
    complete_frame .., length_aesCbcUnchain whole key iv, fun _ hi => blockAt_aesCbcUnchain s.input key iv hi⟩

/-- Settles O15: the one check of `AES_ENC`, each way. -/
theorem aesEncOverflowsOnlyPastTheBuffer : Obligations.AesEncOverflowsOnlyPastTheBuffer := by
  refine fun s key iv hk hv => ⟨fun past => ?overflow, fun fits => ?fits⟩
  case overflow =>
    refine ⟨s.failWith .bufOverflow, ?_, failWith_failedWith s _, complete_frame s (.failure .bufOverflow)⟩
    rw [exec_aesEnc hk hv, aesEncEnding_of_overflow past, State.complete_failure]
  case fits => exact ⟨_, exec_aesEnc_of_fits hk hv fits, nofun⟩

/-! ## Lengths (R128) -/

theorem length_wirelessBody_encrypted (P : Params) {B : List Byte} (h : B ≠ []) :
    (wirelessBody P B 0x02).length = 16 * (B.length / 16 + 1) := by
  rw [wirelessBody, if_pos ⟨rfl, List.length_pos_iff.mpr h⟩, length_aesCbcEnc]

/-- Settles O20: the padded length is the next multiple of 16 past the plaintext's, and none lies between 240
and 245. -/
theorem ciphertextLengths : Obligations.CiphertextLengths := by
  refine ⟨length_aesCbcEnc, fun P B nonempty => ?_⟩
  rw [length_wirelessBody_encrypted P nonempty]
  omega

/-! ## Error propagation (R129) -/

theorem blockXor_left_injective (y : Block) : (Block.xor · y).Injective :=
  Function.LeftInverse.injective (g := (Block.xor · y)) fun x => Block.xor_xor_cancel x y

theorem aesDecBlock_injective (key : Block) : (aesDecBlock key).Injective :=
  Function.LeftInverse.injective (aesEncBlock_aesDecBlock key)

/-- A byte of the decrypted message depends on the ciphertext block it stands in and on the byte one block before. -/
theorem byteAt_aesCbcUnchain (C : List Byte) (key iv : Block) {p : Nat} (h : p / 16 < C.length / 16) :
    byteAt (aesCbcUnchain C key iv) p =
      byteAt (aesDecBlock key (blockAt C (p / 16))).bytes (p % 16) ^^^
        (if p < 16 then byteAt iv.bytes p else byteAt C (p - 16)) := by
  have inside : p % 16 < 16 := Nat.mod_lt _ (by decide)
  rw [byteAt_eq_byteAt_blockAt, blockAt_aesCbcUnchain C key iv h, byteAt_bytes_xor _ _ inside]
  congr 1
  by_cases first : p < 16
  · rw [if_pos first, if_pos (Nat.div_eq_of_lt first), Nat.mod_eq_of_lt first]
  · rw [if_neg first, if_neg (by omega), byteAt_bytes_blockAt C _ inside]
    congr 1; omega

/-- The changed block decrypts to another one: the block before it is the same and the block cipher is injective. -/
theorem blockAt_aesCbcUnchain_set_ne {C : List Byte} (key iv : Block) {i j : Nat} (hi : 16 * i + 16 ≤ C.length)
    (hj : j < 16) {b : Byte} (changed : b ≠ byteAt C (16 * i + j)) :
    blockAt (aesCbcUnchain (C.set (16 * i + j) b) key iv) i ≠ blockAt (aesCbcUnchain C key iv) i := by
  have before : (if i = 0 then iv else blockAt (C.set (16 * i + j) b) (i - 1)) =
      if i = 0 then iv else blockAt C (i - 1) := by
    split
    · rfl
    · exact blockAt_set_of_ne hi hj (by omega) b
  rw [blockAt_aesCbcUnchain _ key iv (by rw [List.length_set]; omega), blockAt_aesCbcUnchain C key iv (by omega),
    before]
  exact fun same => blockAt_set_ne hi hj changed (aesDecBlock_injective key (blockXor_left_injective _ same))

/-- Outside the changed block, only the byte one block after the changed one differs, by the same difference. -/
theorem byteAt_aesCbcUnchain_set {C : List Byte} (key iv : Block) {i j p : Nat} (whole : C.length % 16 = 0)
    (hi : 16 * i + 16 ≤ C.length) (hj : j < 16) (b : Byte) (hp : p < C.length) (other : p / 16 ≠ i) :
    byteAt (aesCbcUnchain (C.set (16 * i + j) b) key iv) p =
      byteAt (aesCbcUnchain C key iv) p ^^^
        (if p = 16 * (i + 1) + j then byteAt C (16 * i + j) ^^^ b else 0) := by
  rw [byteAt_aesCbcUnchain _ key iv (by rw [List.length_set]; omega), byteAt_aesCbcUnchain C key iv (by omega),
    blockAt_set_of_ne hi hj other, byteAt_set (by omega), BitVec.xor_assoc]
  congr 1
  by_cases after : p = 16 * (i + 1) + j
  · have place : p - 16 = 16 * i + j := by omega
    have later : ¬ p < 16 := by omega
    rw [if_neg later, if_neg later, if_pos after, if_pos place, place, ← BitVec.xor_assoc, BitVec.xor_self,
      BitVec.zero_xor]
  · rw [if_neg after, BitVec.ofNat_eq_ofNat, BitVec.xor_zero]
    split
    · rfl
    · exact if_neg (by omega)

/-- Another iv changes the first block alone, byte by byte. -/
theorem byteAt_aesCbcUnchain_iv {C : List Byte} (key iv iv' : Block) {p : Nat} (whole : C.length % 16 = 0)
    (hp : p < C.length) :
    byteAt (aesCbcUnchain C key iv') p =
      byteAt (aesCbcUnchain C key iv) p ^^^ (if p < 16 then byteAt iv.bytes p ^^^ byteAt iv'.bytes p else 0) := by
  rw [byteAt_aesCbcUnchain C key iv' (by omega), byteAt_aesCbcUnchain C key iv (by omega), BitVec.xor_assoc]
  congr 1
  split
  · rw [← BitVec.xor_assoc, BitVec.xor_self, BitVec.zero_xor]
  · exact BitVec.xor_zero.symm

/-- Settles O21: a ciphertext byte enters the decryption of its own block, and as itself the block after; the iv
enters the first block alone. -/
theorem cbcErrorPropagation : Obligations.CbcErrorPropagation :=
  ⟨fun _ key iv _ _ b whole hi hj changed =>
    ⟨blockAt_aesCbcUnchain_set_ne key iv hi hj changed, fun _ hp other =>
      byteAt_aesCbcUnchain_set key iv whole hi hj b hp other⟩,
    fun _ key iv iv' whole _ hp => byteAt_aesCbcUnchain_iv key iv iv' whole hp⟩

end Sys2Proof.Proofs
end

section
/-!
PROOFS. The built wired frame (spec 43_wired_frame.md R140, R141, R143, R147; layout 30_encoding.md R60): where it has
each of its fields, that it is intact, and from these the two builds; and the direction its sync byte tells.
-/

namespace Sys2Proof.Proofs

open Sys2Proof.Machine

/-! ## The built frame (R60, R141) -/

/-- The eight bytes in front of a wired frame's payload (R60). -/
def wiredHeader (P : Params) (sync : Byte) (feature cmdid : U16) (n : Nat) : List Byte :=
  [P.head, sync] ++ be16 feature ++ be16 cmdid ++ be16 (BitVec.ofNat 16 n)

@[simp] theorem length_wiredHeader (P : Params) (sync : Byte) (feature cmdid : U16) (n : Nat) :
    (wiredHeader P sync feature cmdid n).length = 8 := rfl

theorem wiredBody_eq (P : Params) (sync : Byte) (feature cmdid : U16) (B : List Byte) :
    wiredBody P sync feature cmdid B = wiredHeader P sync feature cmdid B.length ++ B := rfl

@[simp] theorem length_wiredBody (P : Params) (sync : Byte) (feature cmdid : U16) (B : List Byte) :
    (wiredBody P sync feature cmdid B).length = 8 + B.length := by
  rw [wiredBody_eq, List.length_append, length_wiredHeader]

theorem wiredFrame_eq (P : Params) (sync : Byte) (feature cmdid : U16) (B : List Byte) :
    wiredFrame P sync feature cmdid B =
      wiredBody P sync feature cmdid B ++ [csumAdd (wiredBody P sync feature cmdid B), P.term0, P.term1] := by
  simp only [wiredFrame, List.append_assoc, List.singleton_append]

section Frame

variable (P : Params) (sync : Byte) (feature cmdid : U16) (B : List Byte)

theorem take_wiredFrame :
    (wiredFrame P sync feature cmdid B).take (8 + B.length) = wiredBody P sync feature cmdid B := by
  rw [wiredFrame_eq]
  exact List.take_left' (length_wiredBody ..)

theorem slice_wiredFrame : slice (wiredFrame P sync feature cmdid B) 8 (8 + B.length) = B := by
  rw [slice, take_wiredFrame, wiredBody_eq]
  exact List.drop_left' (length_wiredHeader ..)

/-- The checksum and the terminator, from the end of the payload on. -/
theorem getElem?_wiredFrame_trailer (j : Nat) :
    (wiredFrame P sync feature cmdid B)[8 + B.length + j]? =
      [csumAdd (wiredBody P sync feature cmdid B), P.term0, P.term1][j]? := by
  rw [wiredFrame_eq, List.getElem?_append_right (by rw [length_wiredBody]; omega), length_wiredBody,
    Nat.add_sub_cancel_left]

theorem getElem?_wiredFrame_payload {j : Nat} (h : j < B.length) :
    (wiredFrame P sync feature cmdid B)[8 + j]? = B[j]? := by
  rw [wiredFrame_eq, List.getElem?_append_left (by rw [length_wiredBody]; omega), wiredBody_eq,
    List.getElem?_append_right (by rw [length_wiredHeader]; omega), length_wiredHeader, Nat.add_sub_cancel_left]

/-! The fields in front of the payload, read as the parse reads them. -/

@[simp] theorem byteAt_wiredFrame_sync : byteAt (wiredFrame P sync feature cmdid B) 1 = sync := rfl

@[simp] theorem rdBE16_wiredFrame_feature : rdBE16 (wiredFrame P sync feature cmdid B) 2 = feature :=
  rdBE16_be16 feature

@[simp] theorem rdBE16_wiredFrame_cmdid : rdBE16 (wiredFrame P sync feature cmdid B) 4 = cmdid := rdBE16_be16 cmdid

@[simp] theorem rdBE16_wiredFrame_length :
    rdBE16 (wiredFrame P sync feature cmdid B) 6 = BitVec.ofNat 16 B.length := rdBE16_be16 _

end Frame

theorem toNat_lengthField {n : Nat} (h : n ≤ 65535) : (BitVec.ofNat 16 n).toNat = n := by
  rw [BitVec.toNat_ofNat]
  exact Nat.mod_eq_of_lt (by omega)

/-- The bytes of a field in big-endian order are the quotient and the remainder by 256, as R60's table has them. -/
theorem wiredFrame_layout (P : Params) (sync : Byte) (feature cmdid : U16) {B : List Byte} (h : B.length ≤ 65535) :
    WiredLayout P sync feature cmdid B (wiredFrame P sync feature cmdid B) where
  total := length_wiredFrame ..
  headAt := rfl
  syncAt := rfl
  featureHigh := congrArg some (highByte_eq_div feature)
  featureLow := congrArg some (lowByte_eq_mod feature)
  cmdidHigh := congrArg some (highByte_eq_div cmdid)
  cmdidLow := congrArg some (lowByte_eq_mod cmdid)
  lengthHigh := by
    have high := highByte_eq_div (BitVec.ofNat 16 B.length)
    rw [toNat_lengthField h] at high
    exact congrArg some high
  lengthLow := by
    have low := lowByte_eq_mod (BitVec.ofNat 16 B.length)
    rw [toNat_lengthField h] at low
    exact congrArg some low
  payloadAt _ := getElem?_wiredFrame_payload P sync feature cmdid B
  checksumAt := by
    rw [take_wiredFrame]
    exact getElem?_wiredFrame_trailer P sync feature cmdid B 0
  term0 := by
    rw [show 9 + B.length = 8 + B.length + 1 by omega]
    exact getElem?_wiredFrame_trailer P sync feature cmdid B 1
  term1 := by
    rw [show 10 + B.length = 8 + B.length + 2 by omega]
    exact getElem?_wiredFrame_trailer P sync feature cmdid B 2

theorem wiredFrame_wellFormed (P : Params) (sync : Byte) (feature cmdid : U16) {B : List Byte}
    (h : B.length ≤ 65535) : WiredWellFormed P (wiredFrame P sync feature cmdid B) := by
  have layout := wiredFrame_layout P sync feature cmdid h
  have total := layout.total
  have term0 := layout.term0
  have term1 := layout.term1
  rw [getElem?_eq_byteAt (by omega), Option.some_inj] at term0 term1
  refine wiredWellFormed_iff.mpr ⟨rfl, ?_, ?_, ?_⟩
  · rw [rdBE16_wiredFrame_length, toNat_lengthField h, total]
  · rwa [total, show 11 + B.length - 2 = 9 + B.length by omega]
  · rwa [total, show 11 + B.length - 1 = 10 + B.length by omega]

theorem wiredFrame_intact (P : Params) (sync : Byte) (feature cmdid : U16) {B : List Byte}
    (h : B.length ≤ 65535) : WiredIntact P (wiredFrame P sync feature cmdid B) where
  wellFormed := wiredFrame_wellFormed P sync feature cmdid h
  checksum := by
    rw [length_wiredFrame, show 11 + B.length - 3 = 8 + B.length by omega]
    exact (wiredFrame_layout P sync feature cmdid h).checksumAt

/-! ## The two builds (R140, R143) -/

/-- A wired build with room for its frame leaves the frame and nothing else. -/
theorem complete_wiredBuildEnding (s : State) (sync : Byte) (feature cmdid : U16) {B : List Byte}
    (range : B.length ≤ 65535) (room : 11 + B.length ≤ Config.params.bufCap) :
    SucceededWith (wiredFrame Config.params sync feature cmdid B)
        (s.complete (wiredBuildEnding Config.params sync feature cmdid B)) ∧
      EngineFrame s (s.complete (wiredBuildEnding Config.params sync feature cmdid B)) ∧
      WiredLayout Config.params sync feature cmdid B (wiredFrame Config.params sync feature cmdid B) := by
  rw [wiredBuildEnding_of_fits range room]
  exact ⟨complete_bytes_succeededWith s _, complete_frame s _, wiredFrame_layout _ sync feature cmdid range⟩

/-- Settles O22: with its operands written and room, the build is the frame of R60's table. -/
theorem wdBuildWritesTheFrame : Obligations.WdBuildWritesTheFrame := fun s sync feature cmdid hs hf hc range room =>
  ⟨_, _, exec_wdBuild hs hf hc, complete_wiredBuildEnding s sync feature cmdid range room⟩

/-- Settles O24: the reply is the wired build of the two bytes put before the payload. -/
theorem wdRespWritesTheReplyFrame : Obligations.WdRespWritesTheReplyFrame := by
  intro s cmdid seq result hc hs hr range room
  have length : ([seq, result] ++ s.input).length = s.input.length + 2 := rfl
  exact ⟨_, _, exec_wdResp hc hs hr, complete_wiredBuildEnding s _ _ cmdid (by omega) (by omega)⟩

/-! ## The direction (R147) -/

/-- The distance from the first sync value to the second is 1 to 255, so never a whole turn. -/
theorem syncP2H_ne_syncH2P (P : Params) : P.syncP2H ≠ P.syncH2P := by
  intro same
  have small := P.syncGap.isLt
  have wrapped := congrArg BitVec.toNat same
  have first := P.syncH2P.isLt
  have one : (1 : Byte).toNat = 1 := rfl
  simp only [Params.syncP2H, BitVec.toNat_add, BitVec.toNat_ofNat] at wrapped
  omega

/-- Settles O30: the two sync values are tried in turn, and the second is not the first. -/
theorem directionComesFromTheSyncByte : Obligations.DirectionComesFromTheSyncByte := fun P =>
  ⟨syncP2H_ne_syncH2P P, if_pos rfl, (if_neg (syncP2H_ne_syncH2P P)).trans (if_pos rfl),
    fun _ notFirst notSecond => (if_neg notFirst).trans (if_neg notSecond)⟩

end Sys2Proof.Proofs
end

section
/-!
PROOFS. The wired parse (spec 43_wired_frame.md R144 to R149; 30_encoding.md R62, R77): how it ends at each of its
checks, what one changed byte leaves of a well-formed buffer, and from these the parse of a built frame, whole or
corrupted, and the part `WD_MIN` plays.
-/

namespace Sys2Proof.Proofs

open Sys2Proof.Machine

/-! ## The four checks (R144, R145), one lemma per failure -/

section Checks

variable {P : Params} {B : List Byte}

theorem wiredParseEnding_of_tooShort (short : B.length < P.wdMin) : wiredParseEnding P B = .failure .tooShort :=
  if_pos short

theorem wiredParseEnding_of_badHead (long : P.wdMin ≤ B.length) (head : byteAt B 0 ≠ P.head) :
    wiredParseEnding P B = .failure .badHead :=
  (if_neg long.not_gt).trans (if_pos head)

theorem wiredParseEnding_of_lengthMismatch (long : P.wdMin ≤ B.length) (head : byteAt B 0 = P.head)
    (length : 11 + (rdBE16 B 6).toNat ≠ B.length) : wiredParseEnding P B = .failure .lengthMismatch :=
  (if_neg long.not_gt).trans ((if_neg (not_not.mpr head)).trans (if_pos length))

theorem wiredParseEnding_of_badTerminator (long : P.wdMin ≤ B.length) (head : byteAt B 0 = P.head)
    (length : 11 + (rdBE16 B 6).toNat = B.length)
    (term : byteAt B (B.length - 2) ≠ P.term0 ∨ byteAt B (B.length - 1) ≠ P.term1) :
    wiredParseEnding P B = .failure .badTerminator :=
  (if_neg long.not_gt).trans ((if_neg (not_not.mpr head)).trans ((if_neg (not_not.mpr length)).trans (if_pos term)))

theorem wdMin_le_of_wellFormed (h : WiredWellFormed P B) : P.wdMin ≤ B.length := by
  have floor := h.floor
  have least := P.wdMin_cases
  omega

end Checks

/-- The rest of the parse does not depend on `WD_MIN`. -/
theorem wiredParseEnding_wdMinIsTen_congr {P : Params} {B : List Byte} {v w : Bool}
    (h : B.length < ({ P with wdMinIsTen := v } : Params).wdMin ↔
      B.length < ({ P with wdMinIsTen := w } : Params).wdMin) :
    wiredParseEnding { P with wdMinIsTen := v } B = wiredParseEnding { P with wdMinIsTen := w } B :=
  if_congr h rfl rfl

/-- Settles O28: no length but 10 lies between the two values, and a buffer of ten bytes that is not too short has the
wrong head or, as no frame is so short, the wrong length. -/
theorem wdMinMattersOnlyForTenBytes : Obligations.WdMinMattersOnlyForTenBytes := by
  intro P B
  have ten : ({ P with wdMinIsTen := true } : Params).wdMin = 10 := rfl
  have eleven : ({ P with wdMinIsTen := false } : Params).wdMin = 11 := rfl
  refine ⟨fun other => wiredParseEnding_wdMinIsTen_congr (by omega), fun length => ?_⟩
  rw [getElem?_eq_byteAt (by omega), Ne, Option.some_inj]
  exact ⟨wiredParseEnding_of_tooShort (by omega), fun head => wiredParseEnding_of_badHead (by omega) head,
    fun head => wiredParseEnding_of_lengthMismatch (by omega) head (by omega)⟩

/-! ## A well-formed buffer (R144) -/

theorem slice_eq_take_drop (B : List Byte) (a b : Nat) : slice B a b = (B.drop a).take (b - a) :=
  List.drop_take ..

/-- A length that the two length bytes can state is far within a 32-bit register. -/
theorem toNat_total_of_wellFormed {P : Params} {B : List Byte} (h : WiredWellFormed P B) :
    (BitVec.ofNat 32 B.length).toNat = B.length := by
  obtain ⟨-, length, -, -⟩ := wiredWellFormed_iff.mp h
  have field := (rdBE16 B 6).isLt
  rw [BitVec.toNat_ofNat]
  exact Nat.mod_eq_of_lt (by omega)

/-- Settles O26: the parse passes its checks, and its ending names each field by its place. -/
theorem wdParseReturnsTheFields : Obligations.WdParseReturnsTheFields := by
  intro s wf
  have run := exec_wdParse s
  obtain ⟨csumOk, -⟩ := wdParse_flags run
  have intact : WiredIntact Config.params s.input ↔ _ := ⟨WiredIntact.checksum, WiredIntact.mk wf⟩
  have frame := complete_frame s (wiredParseEnding Config.params s.input)
  rw [wiredParseEnding_of_wellFormed wf] at run csumOk frame
  refine ⟨_, rdBE16 s.input 2, rdBE16 s.input 4, BitVec.ofNat 32 s.input.length, run, frame, rfl, rfl, rfl,
    rdBE16_toNat .., rdBE16_toNat .., toNat_total_of_wellFormed wf, ?payload, csumOk.trans intact, rfl⟩
  case payload =>
    rw [State.complete_success, State.output_succeedWith, slice_eq_take_drop, Nat.sub_sub]

/-! ## One byte changed -/

theorem byteAt_set_of_ne {B : List Byte} {k i : Nat} (h : i ≠ k) (b : Byte) : byteAt (B.set k b) i = byteAt B i := by
  simp only [byteAt, List.getD_eq_getElem?_getD, List.getElem?_set_ne h.symm]

theorem rdBE16_eq_iff {X Y : List Byte} {i : Nat} :
    rdBE16 X i = rdBE16 Y i ↔ byteAt X i = byteAt Y i ∧ byteAt X (i + 1) = byteAt Y (i + 1) := by
  have low := (byteAt X (i + 1)).isLt
  have low' := (byteAt Y (i + 1)).isLt
  simp only [← BitVec.toNat_inj, rdBE16_toNat]
  omega

theorem rdBE16_set_of_outside {B : List Byte} {k i : Nat} (h : ¬(i ≤ k ∧ k < i + 2)) (b : Byte) :
    rdBE16 (B.set k b) i = rdBE16 B i :=
  rdBE16_eq_iff.mpr ⟨byteAt_set_of_ne (by omega) b, byteAt_set_of_ne (by omega) b⟩

/-- A two-byte field changes exactly when one of its bytes does. -/
theorem rdBE16_set_eq_iff {B : List Byte} {k i : Nat} {b : Byte} (hk : k < B.length) (changed : b ≠ byteAt B k) :
    rdBE16 (B.set k b) i = rdBE16 B i ↔ ¬(i ≤ k ∧ k < i + 2) := by
  refine ⟨fun same inside => ?_, fun outside => rdBE16_set_of_outside outside b⟩
  have unchanged : byteAt (B.set k b) k = byteAt B k := by
    obtain ⟨first, second⟩ := rdBE16_eq_iff.mp same
    obtain rfl | rfl : k = i ∨ k = i + 1 := by omega
    · exact first
    · exact second
  rw [byteAt_set hk, if_pos rfl] at unchanged
  exact changed unchanged

theorem slice_set (B : List Byte) (k a m : Nat) (b : Byte) :
    slice (B.set k b) a m = if a ≤ k then (slice B a m).set (k - a) b else slice B a m := by
  simp only [slice, List.take_set, List.drop_set, ← not_le, ite_not]

/-- R94: one changed byte never leaves the checksum as it was. -/
theorem csumAdd_set_ne {B : List Byte} {k : Nat} {b : Byte} (hk : k < B.length) (changed : b ≠ byteAt B k) :
    csumAdd (B.set k b) ≠ csumAdd B := by
  obtain ⟨-, -, oneByte, -⟩ := additiveCheckLaw
  exact oneByte B k b hk changed

theorem csumAdd_of_wiredIntact {P : Params} {F : List Byte} (h : WiredIntact P F) :
    csumAdd (F.take (F.length - 2)) = 0 := by
  have sum := (wiredIntact_iff_byteSum h.wellFormed).mp h
  exact BitVec.eq_of_toNat_eq (by rw [csumAdd_toNat, sum]; rfl)

section Changed

variable {P : Params} {B : List Byte} {k : Nat} {b : Byte}

theorem wiredParseEnding_set_head (h : WiredWellFormed P B) (changed : b ≠ byteAt B 0) :
    wiredParseEnding P (B.set 0 b) = .failure .badHead := by
  have floor := h.floor
  have least := wdMin_le_of_wellFormed h
  obtain ⟨head, -, -, -⟩ := wiredWellFormed_iff.mp h
  refine wiredParseEnding_of_badHead (by rwa [List.length_set]) ?_
  rwa [byteAt_set (by omega), if_pos rfl, ← head]

theorem wiredParseEnding_set_length (h : WiredWellFormed P B) (low : 6 ≤ k) (high : k < 8)
    (changed : b ≠ byteAt B k) : wiredParseEnding P (B.set k b) = .failure .lengthMismatch := by
  have floor := h.floor
  have least := wdMin_le_of_wellFormed h
  obtain ⟨head, length, -, -⟩ := wiredWellFormed_iff.mp h
  have field : rdBE16 (B.set k b) 6 ≠ rdBE16 B 6 := fun same =>
    (rdBE16_set_eq_iff (by omega) changed).mp same ⟨low, high⟩
  refine wiredParseEnding_of_lengthMismatch (by rwa [List.length_set]) ?_ fun same => field ?_
  · rwa [byteAt_set_of_ne (by omega)]
  · rw [List.length_set, ← length] at same
    exact BitVec.eq_of_toNat_eq (Nat.add_left_cancel same)

theorem wiredParseEnding_set_terminator (h : WiredWellFormed P B) (low : B.length - 2 ≤ k) (high : k < B.length)
    (changed : b ≠ byteAt B k) : wiredParseEnding P (B.set k b) = .failure .badTerminator := by
  have floor := h.floor
  have least := wdMin_le_of_wellFormed h
  obtain ⟨head, length, term0, term1⟩ := wiredWellFormed_iff.mp h
  refine wiredParseEnding_of_badTerminator (by rwa [List.length_set]) ?_ ?_ ?_
  · rwa [byteAt_set_of_ne (by omega)]
  · rwa [rdBE16_set_of_outside (by omega), List.length_set]
  · rw [List.length_set]
    obtain rfl | rfl : k = B.length - 2 ∨ k = B.length - 1 := by omega
    · exact .inl (by rwa [byteAt_set high, if_pos rfl, ← term0])
    · exact .inr (by rwa [byteAt_set high, if_pos rfl, ← term1])

/-- The head, the length and the terminator are all that well-formedness asks for. -/
theorem wiredWellFormed_set (h : WiredWellFormed P B) (low : 1 ≤ k) (high : k < B.length - 2)
    (apart : ¬(6 ≤ k ∧ k < 8)) (b : Byte) : WiredWellFormed P (B.set k b) := by
  obtain ⟨head, length, term0, term1⟩ := wiredWellFormed_iff.mp h
  refine wiredWellFormed_iff.mpr ⟨?_, ?_, ?_, ?_⟩
  · rwa [byteAt_set_of_ne (by omega)]
  · rwa [rdBE16_set_of_outside apart, List.length_set]
  · rwa [List.length_set, byteAt_set_of_ne (by omega)]
  · rwa [List.length_set, byteAt_set_of_ne (by omega)]

/-- Elsewhere the parse succeeds, and only the field that holds the byte and `CSUM_OK` can be other than before. -/
theorem wiredParseEnding_set (h : WiredWellFormed P B) (low : 1 ≤ k) (high : k < B.length - 2)
    (apart : ¬(6 ≤ k ∧ k < 8)) (b : Byte) :
    wiredParseEnding P (B.set k b) = .success
      (if 8 ≤ k then (slice B 8 (B.length - 3)).set (k - 8) b else slice B 8 (B.length - 3))
      ⟨some (if k = 1 then b else byteAt B 1), some (rdBE16 (B.set k b) 2), some (rdBE16 (B.set k b) 4), none, none,
        some (BitVec.ofNat 32 B.length)⟩
      (csumAdd ((B.set k b).take (B.length - 3)) == byteAt (B.set k b) (B.length - 3))
      (directionOf P (if k = 1 then b else byteAt B 1)) := by
  have inside : k < B.length := by omega
  rw [wiredParseEnding_of_wellFormed (wiredWellFormed_set h low high apart b), List.length_set, slice_set,
    byteAt_set inside (i := 1)]
  simp only [eq_comm (a := 1)]

/-- An intact buffer sums to 0 up to its terminator, and one changed byte changes the sum. -/
theorem not_wiredIntact_set (h : WiredIntact P B) (high : k < B.length - 2) (changed : b ≠ byteAt B k) :
    ¬ WiredIntact P (B.set k b) := by
  intro intact
  have before := csumAdd_of_wiredIntact h
  have after := csumAdd_of_wiredIntact intact
  rw [List.length_set, List.take_set] at after
  refine csumAdd_set_ne ?_ ?_ (after.trans before.symm)
  · rw [List.length_take]; omega
  · rwa [byteAt_take high]

end Changed

theorem exec_wdParse_withInput (s : State) (B : List Byte) :
    exec .wdParse (s.withInput B) = .next ((s.withInput B).complete (wiredParseEnding Config.params B)) := by
  rw [exec_wdParse, input_withInput]

theorem complete_failedWith (s : State) {E : Ending} {e : ErrCode} (h : E = .failure e) :
    FailedWith e (s.complete E) := by
  rw [h]
  exact failWith_failedWith s e

/-- Settles O29: the checksum's place is none of those the checks look at and none of a field's, so of all the parse
answers only the comparison sees the byte. -/
theorem wrongWiredChecksumIsOnlyAFlag : Obligations.WrongWiredChecksumIsOnlyAFlag := by
  intro s c wf
  have floor := wf.floor
  refine ⟨_, _, exec_wdParse s, exec_wdParse_withInput s _, ?_⟩
  rw [wiredParseEnding_of_wellFormed wf, wiredParseEnding_set wf (by omega) (by omega) (by omega)]
  have notSync : ¬ s.input.length - 3 = 1 := by omega
  have feature := rdBE16_set_of_outside (B := s.input) (k := s.input.length - 3) (i := 2) (by omega) c
  have cmdid := rdBE16_set_of_outside (B := s.input) (k := s.input.length - 3) (i := 4) (by omega) c
  have payload : (slice s.input 8 (s.input.length - 3)).set (s.input.length - 3 - 8) c =
      slice s.input 8 (s.input.length - 3) :=
    List.set_eq_of_length_le (by simp only [slice, List.length_drop, List.length_take]; omega)
  have covered :
      (s.input.set (s.input.length - 3) c).take (s.input.length - 3) = s.input.take (s.input.length - 3) := by
    rw [List.take_set, List.set_eq_of_length_le (List.length_take_le ..)]
  rw [payload, ite_self, if_neg notSync, feature, cmdid, covered, byteAt_set (by omega), if_pos rfl]
  refine ⟨rfl, rfl, rfl, rfl, rfl, ?csumOk⟩
  case csumOk => rw [State.complete_success, State.succeedWith_flags, beq_iff_eq, eq_comm]

/-! ## A built frame, whole (R148) and with one byte changed (R149) -/

theorem length_wiredFrame_sub_three (P : Params) (sync : Byte) (feature cmdid : U16) (B : List Byte) :
    (wiredFrame P sync feature cmdid B).length - 3 = 8 + B.length := by
  rw [length_wiredFrame]; omega

/-- The parse of a built frame gives back what it was built of. -/
theorem wiredParseEnding_wiredFrame (P : Params) (sync : Byte) (feature cmdid : U16) {B : List Byte}
    (h : B.length ≤ 65535) :
    wiredParseEnding P (wiredFrame P sync feature cmdid B) = .success B
      ⟨some sync, some feature, some cmdid, none, none, some (BitVec.ofNat 32 (11 + B.length))⟩
      true (directionOf P sync) := by
  have wf := wiredFrame_wellFormed P sync feature cmdid h
  have checksum := (wiredIntact_iff wf).mp (wiredFrame_intact P sync feature cmdid h)
  rw [wiredParseEnding_of_wellFormed wf, checksum, length_wiredFrame_sub_three, slice_wiredFrame, length_wiredFrame,
    byteAt_wiredFrame_sync, rdBE16_wiredFrame_feature, rdBE16_wiredFrame_cmdid, beq_self_eq_true]

/-- Settles O31: the build leaves the frame, and the frame parses to what it was built of. -/
theorem wiredRoundTrip : Obligations.WiredRoundTrip := by
  intro s sync feature cmdid hs hf hc range room
  obtain ⟨built, -, -⟩ := complete_wiredBuildEnding s sync feature cmdid range room
  refine ⟨_, _, _, exec_wdBuild hs hf hc, built.output, exec_wdParse_withInput _ _, ?_⟩
  rw [wiredParseEnding_wiredFrame _ sync feature cmdid range]
  exact ⟨State.output_succeedWith .., rfl, rfl, rfl⟩

/-- The parse of a built frame with a byte changed that no structural check looks at. -/
theorem wiredParseEnding_wiredFrame_set (P : Params) (sync : Byte) (feature cmdid : U16) {B : List Byte} {k : Nat}
    {b : Byte} (h : B.length ≤ 65535) (low : 1 ≤ k) (high : k < 9 + B.length) (apart : ¬(6 ≤ k ∧ k < 8))
    (changed : b ≠ byteAt (wiredFrame P sync feature cmdid B) k) :
    wiredParseEnding P ((wiredFrame P sync feature cmdid B).set k b) = .success
      (if 8 ≤ k then B.set (k - 8) b else B)
      ⟨some (if k = 1 then b else sync), some (rdBE16 ((wiredFrame P sync feature cmdid B).set k b) 2),
        some (rdBE16 ((wiredFrame P sync feature cmdid B).set k b) 4), none, none,
        some (BitVec.ofNat 32 (11 + B.length))⟩
      false (directionOf P (if k = 1 then b else sync)) := by
  have intact := wiredFrame_intact P sync feature cmdid h
  have high' : k < (wiredFrame P sync feature cmdid B).length - 2 := by rw [length_wiredFrame]; omega
  have wf := wiredWellFormed_set intact.wellFormed low high' apart b
  have wrong := mt (wiredIntact_iff wf).mpr (not_wiredIntact_set intact high' changed)
  rw [List.length_set] at wrong
  rw [wiredParseEnding_set intact.wellFormed low high' apart, beq_eq_false_iff_ne.mpr wrong,
    length_wiredFrame_sub_three, slice_wiredFrame, length_wiredFrame, byteAt_wiredFrame_sync]

/-- Settles O32: the three structural fields are each one of the checks', and past the checks the changed byte is in
one field at most and under the checksum. -/
theorem wiredSingleByteCorruption : Obligations.WiredSingleByteCorruption := by
  intro s sync feature cmdid payload k b range inside changed
  have wf := wiredFrame_wellFormed Config.params sync feature cmdid range
  have total := length_wiredFrame Config.params sync feature cmdid payload
  refine ⟨_, exec_wdParse_withInput s _, ?head, fun low high => ?length, fun low => ?term,
    fun low high apart => ?field⟩
  case head =>
    rintro rfl
    exact complete_failedWith _ (wiredParseEnding_set_head wf changed)
  case length => exact complete_failedWith _ (wiredParseEnding_set_length wf low high changed)
  case term => exact complete_failedWith _ (wiredParseEnding_set_terminator wf (by omega) (by omega) changed)
  case field =>
    have feature' := rdBE16_set_eq_iff (i := 2) (by omega) changed
    have cmdid' := rdBE16_set_eq_iff (i := 4) (by omega) changed
    rw [rdBE16_wiredFrame_feature] at feature'
    rw [rdBE16_wiredFrame_cmdid] at cmdid'
    rw [wiredParseEnding_wiredFrame_set _ sync feature cmdid range low high apart changed]
    exact ⟨rfl, rfl, rfl, ⟨_, rfl, feature'⟩, ⟨_, rfl, cmdid'⟩, State.output_succeedWith ..⟩

end Sys2Proof.Proofs
end

section
/-!
PROOFS. Which buffers the two parses accept (spec 30_encoding.md R77; 43_wired_frame.md R144; 44_wireless_frame.md
R163): the predicates in the words of the checks, and a buffer whose length alone was made wrong.
-/

namespace Sys2Proof.Proofs

open Sys2Proof.Machine

/-! ## The wireless parse and `WirelessAccepted` (R77, R163) -/

/-- R77's predicate in the words of R163's five checks. -/
theorem wirelessAccepted_iff {P : Params} {B : List Byte} :
    WirelessAccepted P B ↔ 10 ≤ B.length ∧ rdLE16 B 0 = P.wlHdr ∧ (byteAt B 2).toNat = B.length ∧
      rdLE16 B (B.length - 2) = P.wlFtr ∧ csumXor (B.take (B.length - 3)) = byteAt B (B.length - 3) := by
  have header : rdLE16 B 0 = P.wlHdr ↔ (byteAt B 0).toNat + 256 * (byteAt B 1).toNat = P.wlHdr.toNat := by
    rw [← BitVec.toNat_inj, rdLE16_toNat]
  have footer (floor : 10 ≤ B.length) : rdLE16 B (B.length - 2) = P.wlFtr ↔
      (byteAt B (B.length - 2)).toNat + 256 * (byteAt B (B.length - 1)).toNat = P.wlFtr.toNat := by
    rw [← BitVec.toNat_inj, rdLE16_toNat, show B.length - 2 + 1 = B.length - 1 by omega]
  have checksum (floor : 10 ≤ B.length) : csumXor (B.take (B.length - 3)) = byteAt B (B.length - 3) ↔
      B[B.length - 3]? = some (csumXor (B.take (B.length - 3))) := by
    rw [getElem?_eq_byteAt (by omega), Option.some_inj, eq_comm]
  constructor
  · rintro ⟨floor, hdr, total, ftr, csum⟩
    exact ⟨floor, header.mpr hdr, total, (footer floor).mpr ftr, (checksum floor).mpr csum⟩
  · rintro ⟨floor, hdr, total, ftr, csum⟩
    exact ⟨floor, header.mp hdr, total, (footer floor).mp ftr, (checksum floor).mp csum⟩

/-- An accepted buffer passes the five checks; its payload then stands between the seventh byte and the checksum. -/
theorem wirelessParseEnding_of_accepted {P : Params} {B : List Byte} (h : WirelessAccepted P B) :
    wirelessParseEnding P B = .success (wirelessPlain P (slice B 7 (B.length - 3)) (byteAt B 3))
      ⟨none, none, some (rdLE16 B 5), some (byteAt B 3), some (byteAt B 4), some (BitVec.ofNat 32 B.length)⟩
      false .none := by
  obtain ⟨floor, header, total, footer, checksum⟩ := wirelessAccepted_iff.mp h
  have long : ¬ B.length < 10 := by omega
  have place : 7 + (B.length - 10) = B.length - 3 := by omega
  simp [wirelessParseEnding, Config.wlOverhead, long, header, total, footer, checksum, place, slice,
    ResultRegs.novalue]

theorem wirelessParseEnding_of_not_accepted {P : Params} {B : List Byte} (h : ¬ WirelessAccepted P B) :
    wirelessParseEnding P B = .failure .wlNull := by
  simp only [wirelessParseEnding]
  split
  · rfl
  split
  · rfl
  split
  · rfl
  split
  · rfl
  split
  · rfl
  next long header total footer checksum =>
    exact absurd (wirelessAccepted_iff.mpr
      ⟨not_lt.mp long, not_not.mp header, not_not.mp total, not_not.mp footer, not_not.mp checksum⟩) h

/-! ## The accepted buffers (R77) -/

theorem wiredParseEnding_err_ok_iff (s : State) (P : Params) (B : List Byte) :
    (s.complete (wiredParseEnding P B)).flags.err = .ok ↔ WiredWellFormed P B := by
  by_cases wf : WiredWellFormed P B
  · simp only [wiredParseEnding_of_wellFormed wf, State.complete_success, State.succeedWith_flags, wf]
  · obtain ⟨e, listed, failed⟩ := wiredParseEnding_of_not_wellFormed wf
    have notOk : e ≠ .ok := by rintro rfl; simp [Instr.canFailWith] at listed
    simp only [failed, State.complete_failure, State.failWith_flags, notOk, wf]

theorem wirelessParseEnding_err_ok_iff (s : State) (P : Params) (B : List Byte) :
    (s.complete (wirelessParseEnding P B)).flags.err = .ok ↔ WirelessAccepted P B := by
  by_cases accepted : WirelessAccepted P B
  · simp only [wirelessParseEnding_of_accepted accepted, State.complete_success, State.succeedWith_flags, accepted]
  · simp [wirelessParseEnding_of_not_accepted accepted, accepted]

/-- Settles O40: each parse succeeds on the buffers that pass its checks, and an accepted wireless buffer states its
length in one byte. -/
theorem parsesAcceptExactlyTheFrames : Obligations.ParsesAcceptExactlyTheFrames := by
  intro s
  obtain ⟨csumOk, -⟩ := wdParse_flags (exec_wdParse s)
  refine ⟨⟨_, exec_wdParse s, wiredParseEnding_err_ok_iff .., csumOk⟩,
    ⟨_, exec_wlParse s, wirelessParseEnding_err_ok_iff ..⟩, fun accepted => ?_⟩
  have field := (byteAt s.input 2).isLt
  have total := accepted.totalLength
  omega

/-! ## A buffer cut short or extended (R55, R144, R163) -/

theorem byteAt_dropLast {B : List Byte} {i : Nat} (h : i < B.length - 1) : byteAt B.dropLast i = byteAt B i := by
  rw [List.dropLast_eq_take, byteAt_take h]

/-- With the head and the length field of a well-formed buffer, a buffer of another length is a mismatch, if it is not
too short. -/
theorem wiredParseEnding_of_other_length {P : Params} {B C : List Byte} (h : WiredWellFormed P B)
    (same : ∀ i < 8, byteAt C i = byteAt B i) (other : C.length ≠ B.length) (long : P.wdMin ≤ C.length) :
    wiredParseEnding P C = .failure .lengthMismatch := by
  obtain ⟨head, length, -, -⟩ := wiredWellFormed_iff.mp h
  have field : rdBE16 C 6 = rdBE16 B 6 := rdBE16_eq_iff.mpr ⟨same 6 (by decide), same 7 (by decide)⟩
  refine wiredParseEnding_of_lengthMismatch long ((same 0 (by decide)).trans head) ?_
  rw [field, length]
  exact other.symm

/-- With the length byte of an accepted buffer, a buffer of another length is not accepted. -/
theorem not_wirelessAccepted_of_other_length {P : Params} {B C : List Byte} (h : WirelessAccepted P B)
    (same : byteAt C 2 = byteAt B 2) (other : C.length ≠ B.length) : ¬ WirelessAccepted P C := by
  intro accepted
  have total := accepted.totalLength
  rw [same, h.totalLength] at total
  exact other total.symm

theorem exec_wlParse_withInput (s : State) (B : List Byte) :
    exec .wlParse (s.withInput B) = .next ((s.withInput B).complete (wirelessParseEnding Config.params B)) := by
  rw [exec_wlParse, input_withInput]

/-- Settles O41: the bytes that state the length stay, and the length does not. -/
theorem cutOrExtendedFramesAreNotParsed : Obligations.CutOrExtendedFramesAreNotParsed := by
  refine ⟨fun s B X wf more => ?wired, fun s B X accepted more => ?wireless⟩
  all_goals
    have added := List.length_pos_iff.mpr more
    have cut : B.dropLast.length = B.length - 1 := List.length_dropLast
    have extended : (B ++ X).length = B.length + X.length := List.length_append
  case wired =>
    have floor := wf.floor
    have least := wdMin_le_of_wellFormed wf
    refine ⟨⟨_, exec_wdParse_withInput s _, ?_⟩, ⟨_, exec_wdParse_withInput s _, ?_⟩⟩
    · by_cases short : B.dropLast.length < Config.params.wdMin
      · have eleven : B.length = 11 := by have := Config.params.wdMin_cases; omega
        exact .inr ⟨eleven, complete_failedWith _ (wiredParseEnding_of_tooShort short)⟩
      · exact .inl (complete_failedWith _ (wiredParseEnding_of_other_length wf
          (fun i hi => byteAt_dropLast (by omega)) (by omega) (not_lt.mp short)))
    · exact complete_failedWith _ (wiredParseEnding_of_other_length wf
        (fun i hi => byteAt_append_left (by omega)) (by omega) (by omega))
  case wireless =>
    have floor := accepted.floor
    refine ⟨⟨_, exec_wlParse_withInput s _, complete_failedWith _ (wirelessParseEnding_of_not_accepted ?_)⟩,
      ⟨_, exec_wlParse_withInput s _, complete_failedWith _ (wirelessParseEnding_of_not_accepted ?_)⟩⟩
    · exact not_wirelessAccepted_of_other_length accepted (byteAt_dropLast (by omega)) (by omega)
    · exact not_wirelessAccepted_of_other_length accepted (byteAt_append_left (by omega)) (by omega)

end Sys2Proof.Proofs
end

section
/-!
PROOFS. The wireless frame (spec 44_wireless_frame.md R160 to R168; layout 30_encoding.md R61): the payload as sent and
its recovery, where a built frame has each of its fields, that it is accepted and that no single byte of it can change,
and from these the build, the parse, and the parse of a built frame, whole or corrupted.
-/

namespace Sys2Proof.Proofs

open Sys2Proof.Machine

/-! ## The plaintext of a payload (R164) -/

section Plain

variable {P : Params} {raw : List Byte} {crypto : Byte}

theorem wirelessPlain_of_ne (other : crypto ≠ 0x02) : wirelessPlain P raw crypto = raw :=
  if_neg fun aes => other aes.1

@[simp] theorem wirelessPlain_nil : wirelessPlain P [] crypto = [] :=
  if_neg fun aes => Nat.lt_irrefl 0 aes.2

theorem wirelessPlain_of_aesCbcDec_error {e : ErrCode} (failed : aesCbcDec raw P.kDefault Block.zero = .error e) :
    wirelessPlain P raw 0x02 = raw := by
  simp [wirelessPlain, Config.ivDefault, failed]

theorem wirelessPlain_of_aesCbcDec_ok {plain : List Byte} (nonempty : raw ≠ [])
    (decrypted : aesCbcDec raw P.kDefault Block.zero = .ok plain) : wirelessPlain P raw 0x02 = plain := by
  simp [wirelessPlain, Config.ctAes, Config.ivDefault, decrypted, nonempty, List.length_pos_iff]

end Plain

theorem aesCbcDec_of_partial {C : List Byte} (part : C.length % 16 ≠ 0) (key iv : Block) :
    aesCbcDec C key iv = .error .badCipherLen :=
  if_pos part

/-- Settles O36: the two conditions of the decryption, and its one failure. -/
theorem wlParseFallsBackSilently : Obligations.WlParseFallsBackSilently := by
  refine fun P raw crypto => ⟨wirelessPlain_of_ne, ?empty, ?part, ?whole⟩
  case empty => rintro rfl; exact wirelessPlain_nil
  case part => rintro rfl part; exact wirelessPlain_of_aesCbcDec_error (aesCbcDec_of_partial part ..)
  case whole =>
    rintro rfl nonempty whole
    have decrypted := aesCbcDec_of_whole whole P.kDefault Block.zero
    rw [wirelessPlain_of_aesCbcDec_ok nonempty decrypted, decrypted]

/-! ## The payload as sent (R161) -/

section Body

variable (P : Params) (B : List Byte) (crypto : Byte)

theorem wirelessBody_eq_ite :
    wirelessBody P B crypto = if crypto = 0x02 ∧ B ≠ [] then aesCbcEnc B P.kDefault Block.zero else B :=
  if_congr (and_congr_right' List.length_pos_iff) rfl rfl

variable {crypto} in
theorem wirelessBody_of_ne (other : crypto ≠ 0x02) : wirelessBody P B crypto = B :=
  if_neg fun aes => other aes.1

@[simp] theorem wirelessBody_nil : wirelessBody P [] crypto = [] :=
  if_neg fun aes => Nat.lt_irrefl 0 aes.2

/-- The bounds of R160: with AES the last block of padding counts. -/
theorem length_wirelessBody_le_iff :
    (wirelessBody P B crypto).length ≤ 245 ↔ if crypto = 0x02 then B.length ≤ 239 else B.length ≤ 245 := by
  by_cases aes : crypto = 0x02
  · subst aes
    rw [if_pos rfl]
    rcases eq_or_ne B [] with rfl | nonempty
    · simp
    · rw [length_wirelessBody_encrypted P nonempty]; omega
  · rw [if_neg aes, wirelessBody_of_ne P B aes]

/-- What the parse decrypts exactly when the build encrypted it is the payload again (R126). -/
theorem wirelessPlain_wirelessBody : wirelessPlain P (wirelessBody P B crypto) crypto = B := by
  by_cases aes : crypto = 0x02
  · subst aes
    rcases eq_or_ne B [] with rfl | nonempty
    · rw [wirelessBody_nil, wirelessPlain_nil]
    · have sent : wirelessBody P B 0x02 = aesCbcEnc B P.kDefault Block.zero :=
        (wirelessBody_eq_ite ..).trans (if_pos ⟨rfl, nonempty⟩)
      have blocks : aesCbcEnc B P.kDefault Block.zero ≠ [] :=
        List.length_pos_iff.mp (by rw [length_aesCbcEnc]; omega)
      rw [sent, wirelessPlain_of_aesCbcDec_ok blocks (aesCbcDec_aesCbcEnc ..)]
  · rw [wirelessBody_of_ne P B aes, wirelessPlain_of_ne aes]

end Body

/-! ## The built frame (R61, R162) -/

/-- The seven bytes in front of a wireless frame's payload (R61). -/
def wirelessHeader (P : Params) (cmdid : U16) (n : Nat) (crypto seq : Byte) : List Byte :=
  le16 P.wlHdr ++ [BitVec.ofNat 8 (10 + n), crypto, seq] ++ le16 cmdid

@[simp] theorem length_wirelessHeader (P : Params) (cmdid : U16) (n : Nat) (crypto seq : Byte) :
    (wirelessHeader P cmdid n crypto seq).length = 7 := rfl

section Frame

variable (P : Params) (cmdid : U16) (B : List Byte) (crypto seq : Byte)

theorem wirelessPrefix_eq :
    wirelessPrefix P cmdid B crypto seq = wirelessHeader P cmdid B.length crypto seq ++ B := rfl

@[simp] theorem length_wirelessPrefix : (wirelessPrefix P cmdid B crypto seq).length = 7 + B.length := by
  rw [wirelessPrefix_eq, List.length_append, length_wirelessHeader]

theorem wirelessFrame_eq :
    wirelessFrame P cmdid B crypto seq =
      wirelessPrefix P cmdid B crypto seq ++ csumXor (wirelessPrefix P cmdid B crypto seq) :: le16 P.wlFtr := by
  rw [wirelessFrame, List.append_assoc, List.singleton_append]

theorem length_wirelessFrame_sub_three : (wirelessFrame P cmdid B crypto seq).length - 3 = 7 + B.length := by
  rw [length_wirelessFrame]; omega

theorem take_wirelessFrame :
    (wirelessFrame P cmdid B crypto seq).take (7 + B.length) = wirelessPrefix P cmdid B crypto seq := by
  rw [wirelessFrame_eq]
  exact List.take_left' (length_wirelessPrefix ..)

theorem slice_wirelessFrame : slice (wirelessFrame P cmdid B crypto seq) 7 (7 + B.length) = B := by
  rw [slice, take_wirelessFrame, wirelessPrefix_eq]
  exact List.drop_left' (length_wirelessHeader ..)

/-- The checksum and the footer, from the end of the payload on. -/
theorem getElem?_wirelessFrame_trailer (j : Nat) :
    (wirelessFrame P cmdid B crypto seq)[7 + B.length + j]? =
      (csumXor (wirelessPrefix P cmdid B crypto seq) :: le16 P.wlFtr)[j]? := by
  rw [wirelessFrame_eq, List.getElem?_append_right (by rw [length_wirelessPrefix]; omega), length_wirelessPrefix,
    Nat.add_sub_cancel_left]

theorem getElem?_wirelessFrame_payload {j : Nat} (h : j < B.length) :
    (wirelessFrame P cmdid B crypto seq)[7 + j]? = B[j]? := by
  rw [wirelessFrame_eq, List.getElem?_append_left (by rw [length_wirelessPrefix]; omega), wirelessPrefix_eq,
    List.getElem?_append_right (by rw [length_wirelessHeader]; omega), length_wirelessHeader, Nat.add_sub_cancel_left]

/-! The fields around the payload, read as the parse reads them. -/

@[simp] theorem rdLE16_wirelessFrame_header : rdLE16 (wirelessFrame P cmdid B crypto seq) 0 = P.wlHdr :=
  rdLE16_le16 P.wlHdr

@[simp] theorem byteAt_wirelessFrame_total :
    byteAt (wirelessFrame P cmdid B crypto seq) 2 = BitVec.ofNat 8 (10 + B.length) := rfl

@[simp] theorem byteAt_wirelessFrame_crypto : byteAt (wirelessFrame P cmdid B crypto seq) 3 = crypto := rfl

@[simp] theorem byteAt_wirelessFrame_seq : byteAt (wirelessFrame P cmdid B crypto seq) 4 = seq := rfl

@[simp] theorem rdLE16_wirelessFrame_cmdid : rdLE16 (wirelessFrame P cmdid B crypto seq) 5 = cmdid :=
  rdLE16_le16 cmdid

theorem byteAt_wirelessFrame_checksum :
    byteAt (wirelessFrame P cmdid B crypto seq) (7 + B.length) = csumXor (wirelessPrefix P cmdid B crypto seq) := by
  rw [wirelessFrame_eq, byteAt_append_right (length_wirelessPrefix ..).le, length_wirelessPrefix, Nat.sub_self,
    byteAt_cons_zero]

theorem rdLE16_wirelessFrame_footer : rdLE16 (wirelessFrame P cmdid B crypto seq) (8 + B.length) = P.wlFtr := by
  have before : (wirelessPrefix P cmdid B crypto seq ++ [csumXor (wirelessPrefix P cmdid B crypto seq)]).length =
      8 + B.length := by
    rw [List.length_append, length_wirelessPrefix, List.length_singleton]; omega
  have field := (rd16_append_middle (wirelessPrefix P cmdid B crypto seq ++
    [csumXor (wirelessPrefix P cmdid B crypto seq)]) (le16 P.wlFtr) [] (length_le16 _)).right
  rwa [before, List.append_nil, rdLE16_le16] at field

theorem wirelessFrame_layout :
    WirelessLayout P cmdid crypto seq B (wirelessFrame P cmdid B crypto seq) where
  total := length_wirelessFrame ..
  headerLow := congrArg some (lowByte_eq_mod P.wlHdr)
  headerHigh := congrArg some (highByte_eq_div P.wlHdr)
  totalLength := rfl
  cryptoAt := rfl
  seqAt := rfl
  cmdidLow := congrArg some (lowByte_eq_mod cmdid)
  cmdidHigh := congrArg some (highByte_eq_div cmdid)
  payloadAt _ := getElem?_wirelessFrame_payload P cmdid B crypto seq
  checksumAt := by
    rw [take_wirelessFrame]
    exact getElem?_wirelessFrame_trailer P cmdid B crypto seq 0
  footerLow := by
    rw [show 8 + B.length = 7 + B.length + 1 by omega, ← lowByte_eq_mod]
    exact getElem?_wirelessFrame_trailer P cmdid B crypto seq 1
  footerHigh := by
    rw [show 9 + B.length = 7 + B.length + 2 by omega, ← highByte_eq_div]
    exact getElem?_wirelessFrame_trailer P cmdid B crypto seq 2

end Frame

/-- Up to 245 bytes the length byte is the length, and the other checks are the build's own bytes. -/
theorem wirelessFrame_accepted (P : Params) (cmdid : U16) {B : List Byte} (crypto seq : Byte)
    (h : B.length ≤ 245) : WirelessAccepted P (wirelessFrame P cmdid B crypto seq) := by
  refine wirelessAccepted_iff.mpr ⟨?floor, rdLE16_wirelessFrame_header .., ?total, ?footer, ?checksum⟩
  case floor => rw [length_wirelessFrame]; omega
  case total =>
    rw [byteAt_wirelessFrame_total, length_wirelessFrame, BitVec.toNat_ofNat]
    exact Nat.mod_eq_of_lt (by omega)
  case footer =>
    rw [length_wirelessFrame, show 10 + B.length - 2 = 8 + B.length by omega, rdLE16_wirelessFrame_footer]
  case checksum => rw [length_wirelessFrame_sub_three, take_wirelessFrame, byteAt_wirelessFrame_checksum]

/-! ## The build (R160) -/

section Build

variable {P : Params} {cmdid : U16} {crypto seq : Byte} {B : List Byte}

theorem wirelessBuildEnding_of_fits (fits : (wirelessBody P B crypto).length ≤ 245) :
    wirelessBuildEnding P cmdid crypto seq B =
      .bytes (wirelessFrame P cmdid (wirelessBody P B crypto) crypto seq) :=
  if_neg (by rw [Config.wlOverhead]; omega)

theorem wirelessBuildEnding_of_range (long : 245 < (wirelessBody P B crypto).length) :
    wirelessBuildEnding P cmdid crypto seq B = .failure .fieldRange :=
  if_pos (by rw [Config.wlOverhead]; omega)

end Build

/-- Settles O33: within R160's bounds the build is the frame of the payload as sent. -/
theorem wlBuildWritesTheFrame : Obligations.WlBuildWritesTheFrame := by
  intro s cmdid crypto seq hc ht hs aes other
  have fits := (length_wirelessBody_le_iff Config.params s.input crypto).mpr (ite_prop_iff_and.mpr ⟨aes, other⟩)
  rw [← wirelessBody_eq_ite]
  refine ⟨_, _, exec_wlBuild hc ht hs, ?_, complete_frame .., wirelessFrame_layout ..⟩
  rw [wirelessBuildEnding_of_fits fits]
  exact complete_bytes_succeededWith ..

/-- Settles O34: past R160's bounds the payload as sent is past 245 bytes. -/
theorem wlBuildRefusesLongPayloads : Obligations.WlBuildRefusesLongPayloads := by
  intro s cmdid crypto seq hc ht hs long
  have long' : 245 < (wirelessBody Config.params s.input crypto).length := by
    rw [← not_le, length_wirelessBody_le_iff]
    obtain ⟨rfl, long⟩ | ⟨other, long⟩ := long
    · rwa [if_pos rfl, not_le]
    · rwa [if_neg other, not_le]
  exact ⟨_, exec_wlBuild hc ht hs, complete_failedWith s (wirelessBuildEnding_of_range long'), complete_frame ..⟩

/-! ## The parse (R163) -/

/-- Settles O35: an accepted buffer names each field by its place, and states its length in one byte. -/
theorem wlParseReturnsTheFieldsOrNull : Obligations.WlParseReturnsTheFieldsOrNull := by
  refine ⟨fun s accepted => ?accepted, fun s rejected => ?rejected⟩
  case accepted =>
    obtain ⟨-, -, short⟩ := parsesAcceptExactlyTheFrames s
    have small := short accepted
    have run := exec_wlParse s
    have frame := complete_frame s (wirelessParseEnding Config.params s.input)
    rw [wirelessParseEnding_of_accepted accepted] at run frame
    refine ⟨_, rdLE16 s.input 5, BitVec.ofNat 32 s.input.length, run, frame, rfl, rfl, rfl, rdLE16_toNat .., ?total,
      ?payload⟩
    case total =>
      rw [BitVec.toNat_ofNat]
      exact Nat.mod_eq_of_lt (by omega)
    case payload => rw [State.complete_success, State.output_succeedWith, slice_eq_take_drop, Nat.sub_sub]
  case rejected =>
    exact ⟨_, exec_wlParse s, complete_failedWith s (wirelessParseEnding_of_not_accepted rejected),
      complete_frame ..⟩

/-! ## The parse of a built frame (R166, R167) -/

theorem wirelessParseEnding_wirelessFrame (P : Params) (cmdid : U16) {B : List Byte} (crypto seq : Byte)
    (h : B.length ≤ 245) :
    wirelessParseEnding P (wirelessFrame P cmdid B crypto seq) = .success (wirelessPlain P B crypto)
      ⟨none, none, some cmdid, some crypto, some seq, some (BitVec.ofNat 32 (10 + B.length))⟩ false .none := by
  rw [wirelessParseEnding_of_accepted (wirelessFrame_accepted P cmdid crypto seq h), length_wirelessFrame_sub_three,
    slice_wirelessFrame, length_wirelessFrame, byteAt_wirelessFrame_crypto, byteAt_wirelessFrame_seq,
    rdLE16_wirelessFrame_cmdid]

/-- The round trip under every crypto byte, for a frame of `total` bytes. -/
theorem wlParse_of_wlBuild {s : State} {cmdid : U16} {crypto seq : Byte} {total : Nat}
    (hc : s.opnd.cmdid = some cmdid) (ht : s.opnd.crypto = some crypto) (hs : s.opnd.seq = some seq)
    (fits : (wirelessBody Config.params s.input crypto).length ≤ 245)
    (length : 10 + (wirelessBody Config.params s.input crypto).length = total) :
    ∃ (t u : State) (F : List Byte), exec .wlBuild s = .next t ∧ t.output = some F ∧
      exec .wlParse (t.withInput F) = .next u ∧ u.output = some s.input ∧
      u.res = ⟨none, none, some cmdid, some crypto, some seq, some (BitVec.ofNat 32 total)⟩ ∧
      u.flags = ⟨false, .none, .ok⟩ ∧ u.phase = .done := by
  have run := exec_wlBuild hc ht hs
  rw [wirelessBuildEnding_of_fits fits] at run
  refine ⟨_, _, _, run, State.output_succeedWith .., exec_wlParse_withInput .., ?_⟩
  rw [wirelessParseEnding_wirelessFrame _ cmdid crypto seq fits, wirelessPlain_wirelessBody, length]
  exact ⟨State.output_succeedWith .., rfl, rfl, rfl⟩

/-- Settles O37: without AES the payload is sent and returned as it is. -/
theorem wirelessRoundTripPlain : Obligations.WirelessRoundTripPlain := by
  intro s cmdid crypto seq hc ht hs other range
  have sent := wirelessBody_of_ne Config.params s.input other
  exact wlParse_of_wlBuild hc ht hs (by rwa [sent]) (by rw [sent])

/-- Settles O38: the payload is sent as whole blocks, or not at all when there is none. -/
theorem wirelessRoundTripEncrypted : Obligations.WirelessRoundTripEncrypted := by
  intro s cmdid seq hc ht hs range
  refine wlParse_of_wlBuild hc ht hs ((length_wirelessBody_le_iff ..).mpr range) ?length
  case length =>
    split
    next empty => rw [empty, wirelessBody_nil, List.length_nil]
    next nonempty => rw [length_wirelessBody_encrypted _ nonempty]

/-! ## A built frame with one byte changed (R168) -/

theorem rdLE16_eq_iff {X Y : List Byte} {i : Nat} :
    rdLE16 X i = rdLE16 Y i ↔ byteAt X i = byteAt Y i ∧ byteAt X (i + 1) = byteAt Y (i + 1) := by
  have low := (byteAt X i).isLt
  have low' := (byteAt Y i).isLt
  simp only [← BitVec.toNat_inj, rdLE16_toNat]
  omega

/-- R95: one changed byte never leaves the checksum as it was. -/
theorem csumXor_set_ne {B : List Byte} {k : Nat} {b : Byte} (hk : k < B.length) (changed : b ≠ byteAt B k) :
    csumXor (B.set k b) ≠ csumXor B := by
  obtain ⟨-, oneByte, -⟩ := xorCheckLaw
  exact oneByte B k b hk changed

theorem csumXor_of_wirelessAccepted {P : Params} {F : List Byte} (h : WirelessAccepted P F) :
    csumXor (F.take (F.length - 2)) = 0 := by
  obtain ⟨floor, -, -, -, checksum⟩ := wirelessAccepted_iff.mp h
  rw [take_length_sub_two (by omega)]
  exact eq_csumXor_iff.mp checksum.symm

/-- Up to its checksum an accepted buffer XORs to 0, and the two bytes after it are the footer: so no buffer next to an
accepted one is accepted. -/
theorem not_wirelessAccepted_set {P : Params} {F : List Byte} {k : Nat} {b : Byte} (h : WirelessAccepted P F)
    (hk : k < F.length) (changed : b ≠ byteAt F k) : ¬ WirelessAccepted P (F.set k b) := by
  intro accepted
  by_cases covered : k < F.length - 2
  · have before := csumXor_of_wirelessAccepted h
    have after := csumXor_of_wirelessAccepted accepted
    rw [List.length_set, List.take_set] at after
    refine csumXor_set_ne ?_ ?_ (after.trans before.symm)
    · rw [List.length_take]; omega
    · rwa [byteAt_take covered]
  · obtain ⟨-, -, -, before, -⟩ := wirelessAccepted_iff.mp h
    obtain ⟨-, -, -, after, -⟩ := wirelessAccepted_iff.mp accepted
    rw [List.length_set] at after
    obtain ⟨low, high⟩ := rdLE16_eq_iff.mp (after.trans before.symm)
    have unchanged : byteAt (F.set k b) k = byteAt F k := by
      obtain rfl | rfl : k = F.length - 2 ∨ k = F.length - 2 + 1 := by omega
      · exact low
      · exact high
    rw [byteAt_set hk, if_pos rfl] at unchanged
    exact changed unchanged

/-- Settles O39: a built frame is accepted, and so no buffer that differs from it in one byte is. -/
theorem wirelessSingleByteCorruption : Obligations.WirelessSingleByteCorruption := by
  intro s cmdid body crypto seq k b range inside changed
  have accepted := wirelessFrame_accepted Config.params cmdid crypto seq range
  have rejected := not_wirelessAccepted_set accepted (by rwa [length_wirelessFrame]) changed
  exact ⟨_, exec_wlParse_withInput s _, complete_failedWith _ (wirelessParseEnding_of_not_accepted rejected)⟩

end Sys2Proof.Proofs
end

section
/-!
PROOFS. What each turn answers (spec 45_host_interface.md R180 to R186, R189): the engine's turn by phase, every host
action where it is enabled and where it is refused, and from these what the host can write, start and read.
-/

namespace Sys2Proof.Proofs

open Sys2Proof.Machine

/-! ## Whose turn it is -/

theorem step_withTurn_host (s : State) (a : HostAction) : step (s.withTurn (.host a)) = hostAct a s :=
  step_of_host rfl

theorem step_withTurn_engine (s : State) : step (s.withTurn .engine) = engineStep s := step_of_engine rfl

/-! ## The engine's turn -/

theorem engineStep_of_ne {s : State} (notBusy : s.phase ≠ .busy) : engineStep s = .fault .engineNotEnabled := by
  unfold engineStep
  split
  · rfl
  · rfl
  next busy => exact absurd busy notBusy

theorem step_of_endedWell {s : State} (ended : s.endedWell) : step s = .fault .runEnded := by
  obtain ⟨notBusy, script⟩ := ended
  cases phase : s.phase with
  | idle => simp only [step, nextTurn, script, phase]
  | busy => exact absurd phase notBusy
  | done => simp only [step, nextTurn, script, phase]

theorem runCommand_of_decode {c : Byte} {i : Instr} (h : decode c = .ok i) (s : State) :
    runCommand c s = exec i s := by
  simp only [runCommand, h]

/-- Settles O3: with a turn of its own or with no turn left, the engine runs the latched command. -/
theorem stepRunsTheStartedOperation : Obligations.StepRunsTheStartedOperation := by
  intro s c i busy latched decoded _
  have run : engineStep s = exec i s := (engineStep_of_busy busy latched).trans (runCommand_of_decode decoded s)
  exact ⟨(step_withTurn_engine s).trans run, fun script => (step_of_nil script busy).trans run⟩

/-- Settles O4: outside `BUSY` the engine's turn is a fault, and so is the end of the script. -/
theorem noEngineStepOutsideBusy : Obligations.NoEngineStepOutsideBusy := fun s notBusy =>
  ⟨(step_withTurn_engine s).trans (engineStep_of_ne notBusy), step_of_endedWell⟩

/-! ## Host actions while `BUSY` -/

/-- R185: two actions are enabled in every phase, and every other one asks first whether the engine is `BUSY`. -/
theorem hostAct_of_busy {a : HostAction} {s : State} (busy : s.phase = .busy) (notStatus : a ≠ .readStatus)
    (notReset : a ≠ .reset) : hostAct a s = .refused .accessWhileBusy := by
  cases a with
  | writeReg w => exact whenNotBusy_of_busy busy
  | loadIbuf B => exact whenNotBusy_of_busy busy
  | start c => exact whenNotBusy_of_busy busy
  | readReg r => exact whenNotBusy_of_busy busy
  | readResult r => simp only [hostAct, hostReadResult, busy]
  | readStatus => exact absurd rfl notStatus
  | reset => exact absurd rfl notReset

theorem hostAct_readStatus (s : State) : hostAct .readStatus s = .next (s.reply .status (.half s.status)) := rfl

theorem hostAct_reset (s : State) : hostAct .reset s = .next s.resetEngine := rfl

theorem status_of_busy {s : State} (h : s.Inv) (busy : s.phase = .busy) : s.status = 0x0002 := by
  obtain ⟨-, -, -, -, -, busyWord, -⟩ := statusWordFields
  exact busyWord s h busy

/-- Settles O45: `ReadStatus` returns the `BUSY` word of the invariant, a reset needs no phase, and the rest is
refused. -/
theorem busyRefusesAllButStatusAndReset : Obligations.BusyRefusesAllButStatusAndReset := by
  intro s h busy
  refine ⟨?status, ⟨s.resetEngine, ?reset, rfl⟩, fun a notStatus notReset => ?others⟩
  case status => rw [step_withTurn_host, hostAct_readStatus, status_of_busy h busy]; rfl
  case reset => rw [step_withTurn_host, hostAct_reset]
  case others => rw [step_withTurn_host, hostAct_of_busy busy notStatus notReset]

/-! ## Host writes (R181) -/

/-- The one register named holds the value written, the others what they held. -/
theorem get_set (o : OperandRegs) (w : OperandValue) (r : OperandReg) :
    (o.set w).get r = if r = w.reg then some w.value else o.get r := by
  cases w with
  | sync v => exact o.get_set_sync v r
  | feature v => exact o.get_set_feature v r
  | cmdid v => exact o.get_set_cmdid v r
  | crypto v => exact o.get_set_crypto v r
  | seq v => exact o.get_set_seq v r
  | result v => exact o.get_set_result v r
  | key v => exact o.get_set_key v r
  | iv v => exact o.get_set_iv v r

theorem hostAct_writeReg_of_ne {s : State} (notBusy : s.phase ≠ .busy) (w : OperandValue) :
    hostAct (.writeReg w) s = .next { s with opnd := s.opnd.set w } := whenNotBusy_of_ne notBusy

theorem hostAct_loadIbuf_of_fits {s : State} {B : List Byte} (notBusy : s.phase ≠ .busy)
    (fits : B.length ≤ Config.params.bufCap) : hostAct (.loadIbuf B) s = .next (s.withInput B) :=
  (whenNotBusy_of_ne notBusy).trans (if_pos ((Params.fits_iff ..).mpr fits))

theorem hostAct_loadIbuf_of_tooLong {s : State} {B : List Byte} (notBusy : s.phase ≠ .busy)
    (long : Config.params.bufCap < B.length) : hostAct (.loadIbuf B) s = .refused .loadTooLong :=
  (whenNotBusy_of_ne notBusy).trans (if_neg fun fits => long.not_ge ((Params.fits_iff ..).mp fits))

/-- `ILEN` counts every byte a load can put in: `BUFCAP` is far below its range. -/
theorem toNat_ilen_withInput (s : State) {B : List Byte} (fits : B.length ≤ Config.params.bufCap) :
    (s.withInput B).ilen.toNat = B.length := by
  have range := Config.params.bufCap_lt
  simp only [State.ilen, State.withInput, Memory.length_load, BitVec.toNat_ofNat]
  omega

/-- Settles O42: each enabled write is an update of the one field it names; a load is refused past `BUFCAP`; a reset
keeps what is the host's own. -/
theorem hostWritesChangeOnlyWhatTheyName : Obligations.HostWritesChangeOnlyWhatTheyName := by
  refine ⟨fun s w notBusy => ?write, fun s B notBusy fits => ?load, fun s B notBusy long => ?tooLong, fun s => ?reset⟩
  case write =>
    exact ⟨_, (step_withTurn_host ..).trans (hostAct_writeReg_of_ne notBusy w), get_set s.opnd w, rfl⟩
  case load =>
    exact ⟨s.withInput B, (step_withTurn_host ..).trans (hostAct_loadIbuf_of_fits notBusy fits), input_withInput s B,
      toNat_ilen_withInput s fits, Memory.read_load B, rfl⟩
  case tooLong => exact (step_withTurn_host ..).trans (hostAct_loadIbuf_of_tooLong notBusy long)
  case reset => exact ⟨s.resetEngine, (step_withTurn_host ..).trans (hostAct_reset s), rfl, rfl⟩

/-! ## Start (R182, R183) -/

/-- An operation that is not ready has a first operand without a value, and its start is refused for that one. -/
theorem hostAct_start_of_not_ready {s : State} {c : Byte} {i : Instr} (notBusy : s.phase ≠ .busy)
    (decoded : decode c = .ok i) (notReady : ¬ s.opnd.ready i) :
    ∃ r ∈ i.reads, s.opnd.get r = none ∧ hostAct (.start c) s = .refused (.operandNoValue r) := by
  obtain ⟨r, missing⟩ := Option.ne_none_iff_exists'.mp (mt OperandRegs.missing_eq_none.mp notReady)
  obtain ⟨read, unwritten⟩ := OperandRegs.missing_eq_some missing
  refine ⟨r, read, unwritten, (whenNotBusy_of_ne notBusy).trans ?_⟩
  simp only [decoded, missing]

theorem status_started (s : State) (c : Byte) : (s.started c).status = 0x0002 := by
  rw [State.status, State.started_flags, State.started_phase]
  rfl

/-- Settles O43: an enabled start leaves the state `started`; in `BUSY` a start is refused. -/
theorem startLatchesAndInvalidates : Obligations.StartLatchesAndInvalidates := by
  refine ⟨fun s c notBusy ready => ⟨s.started c, ?start, rfl, rfl, status_started s c, ⟨rfl, rfl, rfl, rfl⟩, rfl,
    fun r _ => resultAt_started s c r, rfl, rfl, rfl, rfl, rfl⟩, fun s c busy t => ?busy⟩
  case start => exact (step_withTurn_host ..).trans (hostAct_start_of_ready notBusy ready)
  case busy =>
    rw [step_withTurn_host, hostAct_of_busy (a := .start c) busy nofun nofun]
    nofun

/-- Settles O44: a start asks for the operands of the operation its code selects, and for none when it selects none. -/
theorem startWithAnUnwrittenOperandIsRefused : Obligations.StartWithAnUnwrittenOperandIsRefused := by
  refine ⟨fun s c i notBusy decoded notReady => ?refused, fun s c notBusy unassigned => ?unassigned⟩
  case refused =>
    rw [step_withTurn_host]
    exact hostAct_start_of_not_ready notBusy decoded notReady
  case unassigned =>
    have ready : ∀ i, decode c = .ok i → s.opnd.ready i := fun i decoded => absurd decoded (unassigned i)
    exact ⟨s.started c, (step_withTurn_host ..).trans (hostAct_start_of_ready notBusy ready), rfl, rfl⟩

/-! ## Host reads (R186) -/

section Reads

variable {s : State} {v : Value}

theorem hostAct_readReg_of_some {r : ReadableReg} (notBusy : s.phase ≠ .busy) (held : s.readable r = some v) :
    hostAct (.readReg r) s = .next (s.reply r.reg v) := by
  simp only [hostAct, hostReadReg, whenNotBusy_of_ne notBusy, held]

theorem hostAct_readReg_of_none {r : ReadableReg} (notBusy : s.phase ≠ .busy) (unheld : s.readable r = none) :
    hostAct (.readReg r) s = .refused (.readNoValue r.reg) := by
  simp only [hostAct, hostReadReg, whenNotBusy_of_ne notBusy, unheld]

theorem hostAct_readResult_of_some {r : ResultLoc} (done : s.phase = .done) (held : s.resultAt r = some v) :
    hostAct (.readResult r) s = .next (s.reply r.reg v) := by
  simp only [hostAct, hostReadResult, done, held]

theorem hostAct_readResult_of_none {r : ResultLoc} (done : s.phase = .done) (unheld : s.resultAt r = none) :
    hostAct (.readResult r) s = .refused (.readNoValue r.reg) := by
  simp only [hostAct, hostReadResult, done, unheld]

theorem hostAct_readResult_of_idle (r : ResultLoc) (idle : s.phase = .idle) :
    hostAct (.readResult r) s = .refused .resultWhileIdle := by
  simp only [hostAct, hostReadResult, idle]

end Reads

/-- Settles O46: an enabled read of a value is a reply and no other change; one of `NOVALUE` is refused on that ground
where the phase enables the read, and on the phase's own ground elsewhere. -/
theorem readsReturnWhatIsHeld : Obligations.ReadsReturnWhatIsHeld := by
  simp only [Obligations.ReadsReturnWhatIsHeld, step_withTurn_host]
  refine ⟨hostAct_readStatus, fun s r notBusy v held => hostAct_readReg_of_some notBusy held, fun s r unheld => ?reg,
    fun s r done v held => hostAct_readResult_of_some done held, fun s r unheld => ?result, fun s w => ?written⟩
  case reg =>
    by_cases busy : s.phase = .busy
    · exact ⟨_, hostAct_of_busy busy nofun nofun, fun notBusy => absurd busy notBusy⟩
    · exact ⟨_, hostAct_readReg_of_none busy unheld, fun _ => rfl⟩
  case result =>
    cases phase : s.phase with
    | idle => exact ⟨_, hostAct_readResult_of_idle r phase, nofun⟩
    | busy => exact ⟨_, hostAct_of_busy phase nofun nofun, nofun⟩
    | done => exact ⟨_, hostAct_readResult_of_none phase unheld, fun _ => rfl⟩
  case written => exact (get_set s.opnd w w.reg).trans (if_pos rfl)

/-! ## What stays in `DONE` (R49) -/

theorem SameResults.status {s t : State} (h : SameResults s t) : t.status = s.status := by
  rw [State.status, State.status, h.flags, h.phase]

theorem hostAct_sameResults {a : HostAction} {s t : State} (h : hostAct a s = .next t) (notStart : ∀ c, a ≠ .start c)
    (notReset : a ≠ .reset) : SameResults s t := by
  rcases hostAct_next h with ⟨w, -, -, rfl⟩ | ⟨B, -, -, -, rfl⟩ | ⟨c, start, -⟩ | ⟨-, rfl⟩ | ⟨r, v, -, -, -, rfl⟩ |
    ⟨r, v, -, -, -, rfl⟩ | ⟨reset, -⟩
  · exact ⟨rfl, rfl, rfl, rfl, rfl⟩
  · exact ⟨rfl, rfl, rfl, rfl, rfl⟩
  · exact absurd start (notStart c)
  · exact ⟨rfl, rfl, rfl, rfl, rfl⟩
  · exact ⟨rfl, rfl, rfl, rfl, rfl⟩
  · exact ⟨rfl, rfl, rfl, rfl, rfl⟩
  · exact absurd reset notReset

/-- Settles O58: in `DONE` the engine has no step, and of the host's actions only a start and a reset touch a result. -/
theorem resultsStayUntilStartOrReset : Obligations.ResultsStayUntilStartOrReset := by
  intro s t T done notStart notReset h
  cases T with
  | engine =>
    rw [step_withTurn_engine, engineStep_of_ne (by simp [done])] at h
    cases h
  | host a =>
    rw [step_withTurn_host] at h
    have same : SameResults s t :=
      hostAct_sameResults h (fun c start => notStart c (congrArg _ start)) fun reset => notReset (congrArg _ reset)
    exact ⟨same.phase.trans done, same.obuf, same.res, same.flags, same.op, same.status⟩

end Sys2Proof.Proofs
end

section
/-!
PROOFS. A started operation completes (spec 45_host_interface.md R183, R184, R189; 70_reset_and_hazards.md R234): an
operation answers a next state exactly on written operands, which the invariant grants it in `BUSY`, however often the
host polls before the engine moves.
-/

namespace Sys2Proof.Proofs

open Sys2Proof.Machine

/-! ## Operations and their operands (R183) -/

/-- The answer `x` of an operation that reads the registers `rs` of `o`: a next state with all of them written, or a
refusal that names one that is not. -/
def AnswersOn (o : OperandRegs) (rs : List OperandReg) (x : Host.Outcome State Fault Refusal) : Prop :=
  (∀ r ∈ rs, (o.get r).isSome) ∧ (∃ t, x = .next t) ∨ ∃ r ∈ rs, o.get r = none ∧ x = .refused (.operandNoValue r)

theorem next_answersOn (o : OperandRegs) (t : State) : AnswersOn o [] (.next t) := .inl ⟨nofun, t, rfl⟩

/-- Reading one register more, held in the form `f`, before going on. -/
theorem needOperand_answersOn {α : Type} {f : α → Value} {o : OperandRegs} {r : OperandReg} {rs : List OperandReg}
    {q : Option α} {k : α → Host.Outcome State Fault Refusal} (held : o.get r = q.map f)
    (h : ∀ v, AnswersOn o rs (k v)) : AnswersOn o (r :: rs) (needOperand q r k) := by
  cases q with
  | none => exact .inr ⟨r, List.mem_cons_self, held, rfl⟩
  | some v =>
    have written : (o.get r).isSome := by rw [held]; rfl
    rcases h v with ⟨all, next⟩ | ⟨r', read, unwritten⟩
    · exact .inl ⟨List.forall_mem_cons.mpr ⟨written, all⟩, next⟩
    · exact .inr ⟨r', List.mem_cons_of_mem r read, unwritten⟩

/-- Each operation reads the registers of its row of R71, in that order, and then completes. -/
theorem exec_answersOn (i : Instr) (s : State) : AnswersOn s.opnd i.reads (exec i s) := by
  have completes : ∀ E : Ending, AnswersOn s.opnd [] (.next (s.complete E)) := fun E => next_answersOn _ _
  cases i with
  | csumAdd => exact completes _
  | csumXor => exact completes _
  | wdParse => exact completes _
  | wlParse => exact completes _
  | aesEnc => exact needOperand_answersOn rfl fun _ => needOperand_answersOn rfl fun _ => completes _
  | aesDec => exact needOperand_answersOn rfl fun _ => needOperand_answersOn rfl fun _ => completes _
  | wdBuild =>
    exact needOperand_answersOn rfl fun _ => needOperand_answersOn rfl fun _ => needOperand_answersOn rfl fun _ =>
      completes _
  | wdResp =>
    exact needOperand_answersOn rfl fun _ => needOperand_answersOn rfl fun _ => needOperand_answersOn rfl fun _ =>
      completes _
  | wlBuild =>
    exact needOperand_answersOn rfl fun _ => needOperand_answersOn rfl fun _ => needOperand_answersOn rfl fun _ =>
      completes _

/-- Settles O52: of the two answers an operation can give, the first needs every operand and the second a missing
one. -/
theorem operationsRunExactlyOnWrittenOperands : Obligations.OperationsRunExactlyOnWrittenOperands := by
  intro i s
  rcases exec_answersOn i s with ⟨ready, next⟩ | ⟨r, read, unwritten, refused⟩
  · exact ⟨fun _ => next, fun notReady => absurd ready notReady⟩
  · refine ⟨fun ready => ?_, fun _ => ⟨r, read, unwritten, refused⟩⟩
    have written := ready r read
    rw [unwritten] at written
    cases written

/-! ## The engine's turn in `BUSY` (R184) -/

theorem runCommand_completes {c : Byte} {s : State} (ready : ∀ i, decode c = .ok i → s.opnd.ready i) :
    ∃ E, runCommand c s = .next (s.complete E) := by
  cases decoded : decode c with
  | ok i =>
    obtain ⟨t, run⟩ := (operationsRunExactlyOnWrittenOperands i s).left (ready i decoded)
    obtain ⟨E, rfl⟩ := exec_next run
    exact ⟨E, (runCommand_of_decode decoded s).trans run⟩
  | error e => exact ⟨.failure .badOp, runCommand_of_unassigned (by simp [decoded]) s⟩

/-- The invariant grants a `BUSY` engine a latched command and its operands. -/
theorem engineStep_completes {s : State} (h : s.Inv) (busy : s.phase = .busy) :
    ∃ E, engineStep s = .next (s.complete E) := by
  obtain ⟨-, -, c, latched, ready⟩ := (phaseWf_of_busy busy).mp h.phase
  rw [engineStep_of_busy busy latched]
  exact runCommand_completes ready

/-- Settles O56: the engine's turn is a completion, and a completion ends in `DONE` and keeps the frame. -/
theorem busyEngineAlwaysCompletes : Obligations.BusyEngineAlwaysCompletes := by
  intro s h busy
  obtain ⟨E, run⟩ := engineStep_completes h busy
  exact ⟨s.complete E, (step_withTurn_engine s).trans run, State.complete_phase s E, complete_frame s E⟩

/-! ## Polling (R180, R185, R189) -/

theorem run_succ_of_step {s t : State} (h : step s = .next t) (k : Nat) :
    core.run (k + 1) s = core.run k t := by
  have core_step : core.step s = .next t := h
  simp only [Host.Core.run, core_step]

/-- A poll while `BUSY` returns the `BUSY` word and takes its turn out of the script, and changes nothing else. -/
theorem step_poll {s : State} {rest : List Turn} (h : s.Inv) (busy : s.phase = .busy)
    (script : s.script = .host .readStatus :: rest) :
    step s = .next (({ s with script := rest } : State).reply .status (.half 0x0002)) := by
  rw [step_of_host script, hostAct_readStatus, status_of_busy (inv_withScript h rest) busy]

/-- Settles O57, by induction on the polls still to come: each leaves a `BUSY` state of the invariant with one poll
less, and with none left the engine moves. -/
theorem pollingEndsWithCompletion : Obligations.PollingEndsWithCompletion := by
  intro n
  induction n with
  | zero =>
    intro s h busy script
    obtain ⟨E, run⟩ := engineStep_completes h busy
    refine ⟨s.complete E, run_succ_of_step ((step_of_nil script busy).trans run) 0, State.complete_phase s E,
      ⟨by simp, ?_⟩, ?_⟩
    · rw [State.complete_script, script, List.replicate_zero]
    · rw [State.complete_replies, List.replicate_zero, List.append_nil]
  | succ n ih =>
    intro s h busy script
    have poll := step_poll h busy script
    obtain ⟨t, run, done, ended, replies⟩ := ih _ (everyStepKeepsTheInvariant _ _ h poll) busy rfl
    refine ⟨t, (run_succ_of_step poll (n + 1)).trans run, done, ended, ?_⟩
    rw [replies, State.reply_replies, List.append_assoc, List.singleton_append, ← List.replicate_succ]

end Sys2Proof.Proofs
end

section
/-!
PROOFS. How operations fail (spec 60_exceptions.md R200 to R212): which error code an operation can leave and that
nothing partial comes with it, the order of the checks of the wired parse and of the two wired builds, and the one
operation that refuses a partial block.
-/

namespace Sys2Proof.Proofs

open Sys2Proof.Machine

/-! ## All or nothing (R212) and the error codes (R200) -/

/-- Settles O50: a completion keeps the frame, and its ending is one that the operation's row allows. -/
theorem completionIsAllOrNothing : Obligations.CompletionIsAllOrNothing := by
  intro i s t h
  obtain ⟨E, allowed, rfl⟩ := exec_next_allowed h
  exact ⟨complete_frame s E, complete_allowed allowed s⟩

/-- The two alternatives of R212 leave their code in `ERR`. -/
theorem exec_next_err {i : Instr} {s t : State} (h : exec i s = .next t) :
    t.flags.err = .ok ∨ t.flags.err ∈ i.canFailWith := by
  obtain ⟨-, own | ⟨e, listed, failed⟩⟩ := completionIsAllOrNothing i s t h
  · exact .inl own.err
  · exact .inr (failed.err.symm ▸ listed)

theorem status_err_field (s : State) : s.status.extractLsb' 8 4 = s.flags.err.code := by
  obtain ⟨-, -, -, -, -, err, -⟩ := status_fields s
  exact err

/-- Settles O49: the numbers by evaluation, the field of `STATUS` in every state, the code by the operation's row. -/
theorem errorCodeNumbers : Obligations.ErrorCodeNumbers :=
  ⟨rfl, fun _ _ t h => ⟨status_err_field t, exec_next_err h⟩⟩

/-! ## A partial block (R216) -/

/-- R71's column names `BadCipherLen` in one row. -/
theorem badCipherLen_mem_canFailWith_iff {i : Instr} : .badCipherLen ∈ i.canFailWith ↔ i = .aesDec := by
  cases i <;> decide

/-- Settles O17: the length check of `AES_DEC` comes first; its code stands in no other operation's row; and the
wireless parse answers the same failure with the payload as it is. -/
theorem aesDecRefusesPartialBlocks : Obligations.AesDecRefusesPartialBlocks := by
  refine ⟨fun s key iv hk hv part => ?refused, fun i s t h err => ?only, fun P raw part => ?raw⟩
  case refused =>
    exact ⟨_, exec_aesDec hk hv, complete_failedWith s (aesDecEnding_of_partial part), complete_frame ..⟩
  case only =>
    have left := exec_next_err h
    rw [err] at left
    obtain ok | listed := left
    · cases ok
    · exact badCipherLen_mem_canFailWith_iff.mp listed
  case raw => exact wirelessPlain_of_aesCbcDec_error (aesCbcDec_of_partial part ..)

/-! ## The wired parse (R202 to R205) -/

section Checks

variable {P : Params} {B : List Byte}

theorem getElem?_zero_eq_head_iff (long : P.wdMin ≤ B.length) : B[0]? = some P.head ↔ byteAt B 0 = P.head := by
  have least := P.wdMin_cases
  rw [getElem?_eq_byteAt (by omega), Option.some_inj]

theorem drop_eq_terminator_iff (long : P.wdMin ≤ B.length) :
    B.drop (B.length - 2) = [P.term0, P.term1] ↔
      byteAt B (B.length - 2) = P.term0 ∧ byteAt B (B.length - 1) = P.term1 := by
  have least := P.wdMin_cases
  rw [drop_length_sub_two (by omega), List.cons.injEq, List.cons.injEq, eq_self, and_true]

end Checks

/-- Settles O27: past the length floor the bytes that the later checks look at are in the buffer, and each failing check
ends the parse. -/
theorem wdParseReportsTheFirstFailingCheck : Obligations.WdParseReportsTheFirstFailingCheck := by
  intro s
  have field : 256 * (byteAt s.input 6).toNat + (byteAt s.input 7).toNat = (rdBE16 s.input 6).toNat :=
    (rdBE16_toNat ..).symm
  rw [field]
  refine ⟨_, exec_wdParse s, fun short => ?tooShort, fun long head => ?badHead, fun long head length => ?mismatch,
    fun long head length term => ?terminator⟩
  case tooShort => exact complete_failedWith s (wiredParseEnding_of_tooShort short)
  case badHead =>
    rw [Ne, getElem?_zero_eq_head_iff long] at head
    exact complete_failedWith s (wiredParseEnding_of_badHead long head)
  case mismatch =>
    rw [getElem?_zero_eq_head_iff long] at head
    exact complete_failedWith s (wiredParseEnding_of_lengthMismatch long head length)
  case terminator =>
    rw [getElem?_zero_eq_head_iff long] at head
    rw [Ne, drop_eq_terminator_iff long, not_and_or] at term
    exact complete_failedWith s (wiredParseEnding_of_badTerminator long head length term)

/-! ## The wired builds (R207, R208) -/

/-- Settles O23: both operations end as the one build does, and the build's two checks come in this order. -/
theorem wiredBuildsFailOnRangeThenRoom : Obligations.WiredBuildsFailOnRangeThenRoom := by
  refine ⟨fun s sync feature cmdid => exec_wdBuild, fun s cmdid seq result => exec_wdResp,
    fun P sync feature cmdid B s => ⟨fun long => ?range, fun range past => ?overflow, fun range room => ?fits⟩⟩
  case range => exact ⟨complete_failedWith s (wiredBuildEnding_of_range long), complete_frame ..⟩
  case overflow => exact ⟨complete_failedWith s (wiredBuildEnding_of_overflow range past), complete_frame ..⟩
  case fits => rw [wiredBuildEnding_of_fits range room, State.complete_bytes, State.succeedWith_flags]

end Sys2Proof.Proofs
end

section
/-!
PROOFS. What a reset leaves (spec 70_reset_and_hazards.md R230, 10_state.md R32): the value of each piece of state that
is a view of what a reset writes, and the host's action as a whole.
-/

namespace Sys2Proof.Proofs

open Sys2Proof.Machine

theorem read_nil (a : Nat) : Memory.read [] a = none := rfl

/-- R32's word: `STATUS` is a view of the flags and the phase, and those are the reset values. -/
theorem status_resetEngine (s : State) : s.resetEngine.status = 0x0000 := by
  obtain ⟨-, -, -, -, -, -, resetWord⟩ := statusWordFields
  calc s.resetEngine.status
    _ = State.reset.status := by simp only [State.status, State.resetEngine_flags, State.resetEngine_phase,
          State.reset_flags, State.reset_phase]
    _ = 0x0000 := resetWord

theorem ilen_resetEngine (s : State) : s.resetEngine.ilen = 0 := by
  rw [State.ilen, State.resetEngine_ibuf, List.length_nil]
  rfl

theorem input_resetEngine (s : State) : s.resetEngine.input = [] := by
  rw [State.input, State.resetEngine_ibuf, Memory.bytes, List.map_nil]

theorem olen_resetEngine (s : State) : s.resetEngine.olen = none := by
  rw [State.olen, State.resetEngine_obuf, Option.map_none]

/-- Settles O47: a reset asks for no phase, and each field it leaves is R32's, whatever the state before. -/
theorem resetLeavesTheResetValues : Obligations.ResetLeavesTheResetValues := by
  intro s
  have action : step (s.withTurn (.host .reset)) = .next s.resetEngine :=
    (step_withTurn_host s .reset).trans (hostAct_reset s)
  have ibuf (a : Nat) : s.resetEngine.ibuf.read a = none := by rw [State.resetEngine_ibuf, read_nil]
  have opnd (r : OperandReg) : s.resetEngine.opnd.get r = none := by
    rw [State.resetEngine_opnd, OperandRegs.novalue_get]
  exact ⟨s.resetEngine, action, State.resetEngine_phase s, status_resetEngine s, ilen_resetEngine s,
    input_resetEngine s, ibuf, State.resetEngine_op s, opnd, State.resetEngine_obuf s, olen_resetEngine s,
    fun r _ => resultAt_resetEngine s r⟩

end Sys2Proof.Proofs
end
